-- ==== Sys2Proof/Word.lean ====
section
/-! DEFINITION. The bit-vector types of the dcode4 CORE (spec 00_scope.md R10, R11, R14). -/

namespace Sys2Proof

/-- "a 4-bit unsigned value in [0, 15]; the atomic unit of the output stream" (R14). -/
abbrev Nibble := BitVec 4

/-- A sample, or a byte of memory (R10, R60). -/
abbrev Byte := BitVec 8

/-- A register of the register block, and the bus word of a register access (R21, R32). -/
abbrev Word := BitVec 32

/-- A value of the nibble cursor: NCUR_W = LEN_W + 1 bits (R10, R41). -/
abbrev NCursor := BitVec 33

/-- The code window `W` of R81: four nibbles. -/
abbrev Window := BitVec 16

end Sys2Proof
end

