-- ==== Sys2Proof/Syntax.lean ====
section
/-! DEFINITION. The syntax: one constructor for each mnemonic of spec/opcode_table.json. The table gives DEC.SHORT and
DEC.ESC.BAD one row for each value of a nibble, ENC.MID and ENC.ESC one row for each sign; that nibble or sign is an
operand here, so every row is a constructor at some operand value. -/

namespace Sys2Proof

/-- The sign marker of formats M and E (R80, R84): 0xD negative, 0xE positive. -/
inductive Sign where
  | neg
  | pos
deriving DecidableEq, Repr

/-- The instructions, in the table's three directions (R81): code words the decoder executes, code words the encoder
emits, commands written to CMD. -/
inductive Instr where
  /-- DEC.SHORT: `n0` in 0x0..0xC (R140). -/
  | decShort (n0 : Nibble)
  /-- DEC.MID.NEG: 0xD, `m` (R142). -/
  | decMidNeg (m : Nibble)
  /-- DEC.MID.POS: 0xE, `m` (R143). -/
  | decMidPos (m : Nibble)
  /-- DEC.ESC.NEG: 0xF, 0xD, `lo`, `hi` (R144). -/
  | decEscNeg (lo hi : Nibble)
  /-- DEC.ESC.BAD: 0xF and an `n1` that is no sign marker (R145). -/
  | decEscBad (n1 : Nibble)
  /-- DEC.ESC.POS: 0xF, 0xE, `lo`, `hi` (R146). -/
  | decEscPos (lo hi : Nibble)
  /-- ENC.SHORT: emit `v` (R102). -/
  | encShort (v : Nibble)
  /-- ENC.MID: emit the sign marker and `m` (R103). -/
  | encMid (sgn : Sign) (m : Nibble)
  /-- ENC.ESC: emit 0xF, the sign marker, `lo`, `hi` (R104). -/
  | encEsc (sgn : Sign) (lo hi : Nibble)
  /-- NOP: CMD with OP = 0 (R170). -/
  | nop
  /-- ENCODE: CMD with OP = 1 (R171). -/
  | startEncode
  /-- DECODE: CMD with OP = 2 (R172). -/
  | startDecode
  /-- RESERVED: CMD with OP = 3 (R173). -/
  | reserved
deriving DecidableEq, Repr

end Sys2Proof
end

