-- ==== Sys2Proof/WellFormed.lean ====
section
/-! DEFINITION. Which operand values an instruction's encoding admits (30_encoding.md R80, R85 to R87; 40_encoder.md
R102 to R104). -/

namespace Sys2Proof

/-- A short nibble is 0x0..0xC (R80). -/
def shortNibble (n : Nibble) : Bool := n.toNat ≤ 0xC

/-- A second nibble that makes an escape illegal: neither 0xD nor 0xE (R87). -/
def badEscapeNibble (n : Nibble) : Bool := n ≠ 0xD && n ≠ 0xE

/-- ENC.MID emits m in 0x1..0xD only (R86, R103). -/
def emittedMid (m : Nibble) : Bool := 1 ≤ m.toNat && m.toNat ≤ 0xD

/-- ENC.ESC emits magnitudes 20..255 only (R86, R104). -/
def emittedEsc (lo hi : Nibble) : Bool := 20 ≤ lo.toNat + 16 * hi.toNat

/-- The instruction's operands are ones its encoding admits. -/
def wellFormed : Instr → Bool
  | .decShort n0 => shortNibble n0
  | .decMidNeg _ => true
  | .decMidPos _ => true
  | .decEscNeg _ _ => true
  | .decEscBad n1 => badEscapeNibble n1
  | .decEscPos _ _ => true
  | .encShort v => shortNibble v
  | .encMid _ m => emittedMid m
  | .encEsc _ lo hi => emittedEsc lo hi
  | .nop => true
  | .startEncode => true
  | .startDecode => true
  | .reserved => true

end Sys2Proof
end

