-- ==== Sys2Proof/Decode.lean ====
section
/-! DEFINITION. The decoders of the three languages of 30_encoding.md, total, rejecting by name, and after them the
encoder and the opcode table's masks and patterns. -/

namespace Sys2Proof

/-! ## Nibbles -/

/-- The low lane of a packed byte, bits 3:0: the nibble of even index (R61, R79). -/
def lowNibble (b : Byte) : Nibble := b.extractLsb' 0 4

/-- The high lane of a packed byte, bits 7:4: the nibble of odd index (R61, R79). -/
def highNibble (b : Byte) : Nibble := b.extractLsb' 4 4

/-- A packed byte, lane 0 low (R79): `lo | (hi << 4)`. -/
def packByte (lo hi : Nibble) : Byte := hi ++ lo

/-- The nibbles of packed bytes in stream order: low half first (R61). -/
def unpackBytes : List Byte → List Nibble
  | [] => []
  | b :: bs => lowNibble b :: highNibble b :: unpackBytes bs

/-- The nibble of a sign marker (R80, R84). -/
def signMarker : Sign → Nibble
  | .neg => 0xD
  | .pos => 0xE

/-- The escape marker (R80). -/
def escapeMarker : Nibble := 0xF

/-! ## The code window -/

/-- Nibble `i` of the list, 0 where there is none. A window's nibble past the code word is "don't care" (R81). Log
entry 21. -/
def nibbleOr0 (ns : List Nibble) (i : Nat) : Nibble := ns.getD i 0

/-- The code window `W = n0 | (n1 << 4) | (n2 << 8) | (n3 << 12)` (R81). -/
def windowOf (ns : List Nibble) : Window :=
  nibbleOr0 ns 3 ++ (nibbleOr0 ns 2 ++ (nibbleOr0 ns 1 ++ nibbleOr0 ns 0))

/-- Nibble `i` of a code window (R81). -/
def windowNibble (w : Window) (i : Nat) : Nibble := w.extractLsb' (4 * i) 4

/-- The decoder's table (R85, R87): "for every W, exactly one of them matches" (R81). -/
def decodeWindow (w : Window) : Instr :=
  let n0 := windowNibble w 0
  let n1 := windowNibble w 1
  if n0.toNat ≤ 0xC then .decShort n0
  else if n0 = 0xD then .decMidNeg n1
  else if n0 = 0xE then .decMidPos n1
  else if n1 = 0xD then .decEscNeg (windowNibble w 2) (windowNibble w 3)
  else if n1 = 0xE then .decEscPos (windowNibble w 2) (windowNibble w 3)
  else .decEscBad n1

/-- The command of a word written to CMD: OP = bits 1:0 alone selects it (R22, R90). -/
def decodeCommand (v : BitVec 32) : Instr :=
  match v.toNat % 4 with
  | 0 => .nop
  | 1 => .startEncode
  | 2 => .startDecode
  | _ => .reserved

/-! ## Decoding nibbles -/

/-- Why a run of nibbles is no instruction. -/
inductive DecodeError where
  /-- There is no nibble. -/
  | empty
  /-- The nibbles end inside a code word (R141). -/
  | truncated
  /-- Nibbles are left after the code word. -/
  | trailing
  /-- A word the encoder never emits: it is non-canonical (R86) or illegal (R87). -/
  | neverEmitted
deriving DecidableEq, Repr

/-- How many nibbles the decoder inspects of a code word (R85, R149): its length, and 2 for the illegal escape. 0 for
what is no code word of the decoder. -/
def inspectedNibbles : Instr → Nat
  | .decShort _ => 1
  | .decMidNeg _ => 2
  | .decMidPos _ => 2
  | .decEscNeg _ _ => 4
  | .decEscBad _ => 2
  | .decEscPos _ _ => 4
  | .encShort _ => 0
  | .encMid _ _ => 0
  | .encEsc _ _ _ => 0
  | .nop => 0
  | .startEncode => 0
  | .startDecode => 0
  | .reserved => 0

/-- The first code word of a run of nibbles, with the nibbles after it (R85: "a stream parses in exactly one way"). -/
def decodeNibbles (ns : List Nibble) : Except DecodeError (Instr × List Nibble) :=
  if ns = [] then .error .empty
  else
    let i := decodeWindow (windowOf ns)
    if ns.length < inspectedNibbles i then .error .truncated
    else .ok (i, ns.drop (inspectedNibbles i))

/-- The first code word of packed bytes (R61, R85). -/
def decodeBytes (bs : List Byte) : Except DecodeError (Instr × List Nibble) :=
  decodeNibbles (unpackBytes bs)

/-- The sign a nibble marks, if it is a sign marker (R80). -/
def signOf (n : Nibble) : Option Sign :=
  if n = 0xD then some .neg else if n = 0xE then some .pos else none

/-- The word the encoder emits as these nibbles (R86, R89). -/
def decodeEmission : List Nibble → Except DecodeError Instr
  | [] => .error .empty
  | [v] => if v.toNat ≤ 0xC then .ok (.encShort v) else .error .neverEmitted
  | [n0, m] =>
    match signOf n0 with
    | some sgn => if 1 ≤ m.toNat ∧ m.toNat ≤ 0xD then .ok (.encMid sgn m) else .error .neverEmitted
    | none => .error .neverEmitted
  | [n0, n1, lo, hi] =>
    match signOf n1 with
    | some sgn =>
      if n0 = 0xF ∧ 20 ≤ lo.toNat + 16 * hi.toNat then .ok (.encEsc sgn lo hi) else .error .neverEmitted
    | none => .error .neverEmitted
  | _ => .error .trailing

/-! ## The encoder of instructions -/

/-- The nibbles of a code word in stream order (R80); none for a command. -/
def wordNibbles : Instr → List Nibble
  | .decShort n0 => [n0]
  | .decMidNeg m => [0xD, m]
  | .decMidPos m => [0xE, m]
  | .decEscNeg lo hi => [0xF, 0xD, lo, hi]
  | .decEscBad n1 => [0xF, n1]
  | .decEscPos lo hi => [0xF, 0xE, lo, hi]
  | .encShort v => [v]
  | .encMid sgn m => [signMarker sgn, m]
  | .encEsc sgn lo hi => [escapeMarker, signMarker sgn, lo, hi]
  | .nop => []
  | .startEncode => []
  | .startDecode => []
  | .reserved => []

/-- An encoded instruction: a word for CMD (R90), nibbles for the decoder, or nibbles the encoder emits (R81's three
directions). -/
inductive Encoded where
  | command (v : Word)
  | codeWord (ns : List Nibble)
  | emission (ns : List Nibble)
deriving DecidableEq, Repr

/-- The encoding of an instruction. The ignored bits 31:2 of a command are written 0. -/
def encode : Instr → Encoded
  | .decShort n0 => .codeWord (wordNibbles (.decShort n0))
  | .decMidNeg m => .codeWord (wordNibbles (.decMidNeg m))
  | .decMidPos m => .codeWord (wordNibbles (.decMidPos m))
  | .decEscNeg lo hi => .codeWord (wordNibbles (.decEscNeg lo hi))
  | .decEscBad n1 => .codeWord (wordNibbles (.decEscBad n1))
  | .decEscPos lo hi => .codeWord (wordNibbles (.decEscPos lo hi))
  | .encShort v => .emission (wordNibbles (.encShort v))
  | .encMid sgn m => .emission (wordNibbles (.encMid sgn m))
  | .encEsc sgn lo hi => .emission (wordNibbles (.encEsc sgn lo hi))
  | .nop => .command 0
  | .startEncode => .command 1
  | .startDecode => .command 2
  | .reserved => .command 3

/-- The instruction of an encoding. A code word must be whole and nothing may follow it. -/
def decode : Encoded → Except DecodeError Instr
  | .command v => .ok (decodeCommand v)
  | .codeWord ns =>
    match decodeNibbles ns with
    | .ok (i, []) => .ok i
    | .ok (_, _ :: _) => .error .trailing
    | .error e => .error e
  | .emission ns => decodeEmission ns

/-! ## The opcode table -/

/-- A row of spec/opcode_table.json: it matches W when `(W & mask) == pattern` (R81). -/
structure Row where
  mask : Word
  pattern : Word
deriving DecidableEq, Repr

/-- The row matches the word (R81). -/
def rowMatches (r : Row) (w : Word) : Bool := (w &&& r.mask) = r.pattern

/-- The rows of direction `decode`: DEC.SHORT for each n0 in 0x0..0xC, DEC.MID.NEG, DEC.MID.POS, DEC.ESC.NEG,
DEC.ESC.BAD for each n1 in 0x0..0xC and 0xF, DEC.ESC.POS. -/
def decodeRows : List Row :=
  (List.range 13).map (fun n => ⟨0x000F, BitVec.ofNat 32 n⟩)
  ++ [⟨0x000F, 0x000D⟩, ⟨0x000F, 0x000E⟩, ⟨0x00FF, 0x00DF⟩]
  ++ (List.range 13).map (fun n => ⟨0x00FF, BitVec.ofNat 32 (16 * n + 15)⟩)
  ++ [⟨0x00FF, 0x00FF⟩, ⟨0x00FF, 0x00EF⟩]

/-- The rows of direction `encode`, from their bit strings; ENC.SHORT's fixes no bit. -/
def emissionRows : List Row :=
  [⟨0x0000, 0x0000⟩, ⟨0x000F, 0x000D⟩, ⟨0x000F, 0x000E⟩, ⟨0x00FF, 0x00DF⟩, ⟨0x00FF, 0x00EF⟩]

/-- The rows of direction `command`. -/
def commandRows : List Row := [⟨3, 0⟩, ⟨3, 1⟩, ⟨3, 2⟩, ⟨3, 3⟩]

/-- The row an instruction's encoding belongs to. -/
def rowOf : Instr → Row
  | .decShort n0 => ⟨0x000F, n0.setWidth 32⟩
  | .decMidNeg _ => ⟨0x000F, 0x000D⟩
  | .decMidPos _ => ⟨0x000F, 0x000E⟩
  | .decEscNeg _ _ => ⟨0x00FF, 0x00DF⟩
  | .decEscBad n1 => ⟨0x00FF, (n1 ++ (0xF : Nibble)).setWidth 32⟩
  | .decEscPos _ _ => ⟨0x00FF, 0x00EF⟩
  | .encShort _ => ⟨0x0000, 0x0000⟩
  | .encMid .neg _ => ⟨0x000F, 0x000D⟩
  | .encMid .pos _ => ⟨0x000F, 0x000E⟩
  | .encEsc .neg _ _ => ⟨0x00FF, 0x00DF⟩
  | .encEsc .pos _ _ => ⟨0x00FF, 0x00EF⟩
  | .nop => ⟨3, 0⟩
  | .startEncode => ⟨3, 1⟩
  | .startDecode => ⟨3, 2⟩
  | .reserved => ⟨3, 3⟩

/-- The table's rows of the language an encoding is in. -/
def rowsOf : Encoded → List Row
  | .command _ => commandRows
  | .codeWord _ => decodeRows
  | .emission _ => emissionRows

/-- An encoding as the number the table's masks read: the CMD word, or the code window (R81). -/
def tableWord : Encoded → Word
  | .command v => v
  | .codeWord ns => (windowOf ns).setWidth 32
  | .emission ns => (windowOf ns).setWidth 32

/-- The instruction the decoder reads from a word numbered as the table numbers it. A word of at most 16 bits is a
code window, laid out as two packed bytes, the first at the lower address (R81); a longer one is the 32-bit CMD word.
The table's words of the three languages overlap: log entry 16. -/
def decodeTableWord (nbits w : Nat) : Option Instr :=
  if nbits ≤ 16 then
    match decodeBytes [BitVec.ofNat 8 w, BitVec.ofNat 8 (w / 256)] with
    | .ok (i, _) => some i
    | .error _ => none
  else if nbits ≤ 32 then some (decodeCommand (BitVec.ofNat 32 w))
  else none

end Sys2Proof
end

