-- ==== Sys2Proof/Config.lean ====
section
/-! DEFINITION. What the implementation fixes, and the free values of the spec (00_scope.md R10,
93_implementation_defined.md section 2). -/

namespace Sys2Proof

/-- The value a read of OUT_LEN, CONSUMED, CONSUMED_HI or LAST returns while BUSY = 1: drawn "freely on every
read, under no law" (R36). Applied to `State.draws`. Log entry 6. -/
opaque Config.freeWord : Nat → Word

/-- The choice between the old and the final value of an output byte (R75, R231). Applied to `State.draws`.
Log entry 6. -/
opaque Config.freeChoice : Nat → Bool

/-- What a byte of memory reads as that nothing has written. DESIGN CHOICE, unsafe: log entry 1. -/
def Config.unlistedByte : Byte := 0xAA

/-- ADDR_W in `State.reset`: the spec's default (R10). Log entry 2. -/
def Config.addrW : Nat := 32

/-- REG_BASE in `State.reset`. DESIGN CHOICE, unsafe: the spec leaves it OPEN (R10). Log entry 2. -/
def Config.regBase : Nat := 0xFFFFFFC0

end Sys2Proof
end

