-- ==== Sys2Proof/Machine/State.lean ====
section
/-! DEFINITION. The state of the machine (10_state.md), as plain data, and its value after reset (R48). -/

namespace Sys2Proof.Machine

/-- The states of the engine's finite-state machine (R44). -/
inductive Fsm where
  | idle
  | encRun
  | decRun
deriving DecidableEq, Repr

/-- The error codes of STATUS.ERRCODE (R201); 6 to 15 are never produced. -/
inductive ErrCode where
  | none
  | overflow
  | badEscape
  | truncated
  | range
  | badCmd
deriving DecidableEq, Repr

/-- Host memory as address and byte, in one canonical form: addresses strictly rising, no entry equal to what an
unlisted address reads as (`Memory.wf`). -/
abbrev Memory := List Host.Cell

/-- The enabled moves of R178, and reset (R230). The host's register accesses are by offset from REG_BASE (R92), with
the access's width in bits (R32). Log entries 3, 4, 13. -/
inductive Move where
  /-- The engine takes one step, if a command runs (R178 (b)). -/
  | engine
  /-- The host writes `v` to the register block at `offset` (R34, R35, R170 to R173). -/
  | regWrite (offset bits : Nat) (v : Word)
  /-- The host reads the register block at `offset` (R33, R36). -/
  | regRead (offset bits : Nat)
  /-- The host reads STATUS until BUSY = 0 (R92). -/
  | poll
  /-- The host writes a byte of memory (R178, R180). -/
  | memWrite (addr : Nat) (v : Byte)
  /-- The host reads a byte of memory (R75, R178, R180). -/
  | memRead (addr : Nat)
  /-- The reset input is asserted (R230, R231). -/
  | reset
deriving DecidableEq, Repr

/-- The latest command start whose end the host has not yet read in STATUS: its buffers, which are frozen (R241), and
memory as it was before it (R75, R231). The model's own: log entry 10. -/
structure Launch where
  src : Nat
  len : Nat
  dst : Nat
  cap : Nat
  before : Memory
deriving DecidableEq, Repr

/-- Everything the spec gives the machine. STATUS is not a field of its own: BUSY is `fsm ≠ idle` (R44), ERROR is
`errCode ≠ none` (R23), and `statusWord` shows the register. CMD holds no value (R22). -/
structure State where
  /-- ADDR_W (R10). -/
  addrW : Nat
  /-- REG_BASE (R10). -/
  regBase : Nat
  /-- SRC_ADDR (R24). -/
  srcAddr : Word
  /-- SRC_LEN: N, or P (R25). -/
  srcLen : Word
  /-- DST_ADDR (R26). -/
  dstAddr : Word
  /-- DST_CAP: C, or M (R27). -/
  dstCap : Word
  /-- OUT_LEN (R28). -/
  outLen : Word
  /-- CONSUMED (R29). -/
  consumed : Word
  /-- CONSUMED_HI, bit 0 (R29). -/
  consumedHi : BitVec 1
  /-- LAST, bits 7:0 (R30). -/
  last : Byte
  /-- STATUS.DONE (R23). -/
  done : Bool
  /-- STATUS.ERRCODE (R23). -/
  errCode : ErrCode
  /-- `s.fsm` (R44). -/
  fsm : Fsm
  /-- `s.prev` (R40). -/
  prev : Byte
  /-- `s.ncur` (R41). -/
  ncur : NCursor
  /-- `s.scur` (R42). -/
  scur : Word
  /-- `s.hold` (R43). -/
  hold : Nibble
  /-- Host memory (R60). -/
  mem : Memory
  /-- The model's own: the moves to come, the next one first. Log entry 3. -/
  script : List Move
  /-- The model's own: what the host's latest read returned. Log entry 5. -/
  rdata : Word
  /-- The model's own: the command whose end the host has not read. Log entry 10. -/
  launch : Option Launch
  /-- The model's own: how many free values have been drawn. Log entry 6. -/
  draws : Nat
deriving DecidableEq, Repr

/-- What stops the machine. -/
inductive Fault where
  /-- Raised by the engine when an access of its memory port has no byte to go to: its address is not below
  2^ADDR_W. "A memory access the platform cannot complete leaves the CORE stuck" (R71, R209). Safe. Log entry 11. -/
  | memoryStuck
  /-- Raised by a host memory access whose address is not below 2^ADDR_W: memory has no such byte (R60). Safe. Log
  entry 11. -/
  | noSuchAddress
deriving DecidableEq, Repr

/-- Why the model gives something no meaning. -/
inductive Refusal where
  /-- Raised by `exec` for an instruction that has no meaning yet. Safe. -/
  | notModelled (mnemonic : String)
  /-- Raised by a register access that is not 32-bit, aligned and inside the window: "A model refuses an access of
  another width or alignment" (R32). Safe. -/
  | badRegisterAccess
  /-- Raised by an ENCODE or DECODE start with a buffer that wraps the address space (R69 (a)). Safe. -/
  | bufferWraps
  /-- Raised by an ENCODE or DECODE start whose buffers overlap (R69 (b)). Safe. -/
  | buffersOverlap
  /-- Raised by an ENCODE or DECODE start with a buffer over the register window (R69 (c)). Safe. -/
  | bufferOverRegisters
  /-- Raised by a host write to a frozen buffer: "A model gives the host no such move" (R241). Unsafe in the spec's own
  words (R241, "toward proving"): an agent that breaks the duty can do what no run shows. Log entry 10. -/
  | frozenBuffer
  /-- Raised by `exec` of a code word while its operation does not run, and by an error raised while no command runs:
  the engine takes no such step (R44). Never raised by `step`. Safe. Log entry 14. -/
  | noCommandRunning
deriving DecidableEq, Repr

/-- The machine right after reset (R48, R230), for given parameters (R10). -/
def State.resetWith (addrW regBase : Nat) : State where
  addrW := addrW
  regBase := regBase
  srcAddr := 0
  srcLen := 0
  dstAddr := 0
  dstCap := 0
  outLen := 0
  consumed := 0
  consumedHi := 0
  last := 0
  done := false
  errCode := .none
  fsm := .idle
  prev := 0
  ncur := 0
  scur := 0
  hold := 0
  mem := []
  script := []
  rdata := 0
  launch := .none
  draws := 0

/-- The machine right after reset, with the parameters `Config` names. Log entries 1 and 2. -/
def State.reset : State := State.resetWith Config.addrW Config.regBase

end Sys2Proof.Machine
end

