-- ==== Sys2Proof/Machine/Flags.lean ====
section
/-! DEFINITION. STATUS as the host sees it (10_state.md R23, R37; 60_exceptions.md R201). -/

namespace Sys2Proof.Machine

/-- The number of an error code (R201). -/
def errNumber : ErrCode → Nat
  | .none => 0
  | .overflow => 1
  | .badEscape => 2
  | .truncated => 3
  | .range => 4
  | .badCmd => 5

/-- STATUS.BUSY = (`s.fsm != IDLE`) (R44). -/
def busy (s : State) : Bool := s.fsm ≠ .idle

/-- STATUS.ERROR = (ERRCODE != 0) (R23). -/
def errorFlag (s : State) : Bool := errNumber s.errCode ≠ 0

/-- The STATUS register: BUSY in bit 0, DONE in bit 1, ERROR in bit 2, ERRCODE in bits 7:4, the rest 0 (R23). -/
def statusWord (s : State) : Word :=
  BitVec.ofNat 32 ((busy s).toNat + 2 * s.done.toNat + 4 * (errorFlag s).toNat + 16 * errNumber s.errCode)

end Sys2Proof.Machine
end

