-- ==== Sys2Proof/Machine/Ops.lean ====
section
/-! DEFINITION. The named operations over memory, the register block and the engine's state, and the end of a command
with or without an error (20_memory.md, 10_state.md, 40_encoder.md R105 to R111, 41_decoder.md R148, R150,
60_exceptions.md R200). -/

namespace Sys2Proof.Machine

/-! ## Memory (R60) -/

/-- The byte at an address: the listed one, else what an unlisted address reads as (log entry 1). -/
def Memory.read : Memory → Nat → Byte
  | [], _ => Config.unlistedByte
  | (b, v) :: m, a => if a = b then v else Memory.read m a

/-- The memory without any entry for an address. -/
def Memory.erase : Memory → Nat → Memory
  | [], _ => []
  | (b, v) :: m, a => if a = b then Memory.erase m a else (b, v) :: Memory.erase m a

/-- The memory with an entry put before the first higher address. -/
def Memory.insert : Memory → Nat → Byte → Memory
  | [], a, v => [(a, v)]
  | (b, w) :: m, a, v => if a < b then (a, v) :: (b, w) :: m else (b, w) :: Memory.insert m a v

/-- The memory with a byte stored (R60), in canonical form: the value an unlisted address reads as leaves no entry. -/
def Memory.write (m : Memory) (a : Nat) (v : Byte) : Memory :=
  if v = Config.unlistedByte then Memory.erase m a else Memory.insert (Memory.erase m a) a v

/-- The canonical form: addresses strictly rising, no entry equal to what an unlisted address reads as. -/
abbrev Memory.wf (m : Memory) : Prop :=
  m.Pairwise (fun c d => c.1 < d.1) ∧ ∀ c ∈ m, c.2 ≠ Config.unlistedByte

/-- Memory with, at each listed address, the value `f` gives there. -/
def Memory.overwrite (m : Memory) (addrs : List Nat) (f : Nat → Byte) : Memory :=
  addrs.foldl (fun m' a => Memory.write m' a (f a)) m

/-- The address is one of memory's 2^ADDR_W (R60). -/
def inMemory (s : State) (a : Nat) : Bool := a < 2 ^ s.addrW

/-- The address lies in the `len` bytes from `base` (R64). -/
def inBuffer (base len a : Nat) : Bool := base ≤ a && a < base + len

/-- Two ranges of bytes share none: an empty range overlaps nothing (R69 (b), (c)). -/
def disjoint (a n b m : Nat) : Bool := n == 0 || m == 0 || a + n ≤ b || b + m ≤ a

/-- The size of the register window in bytes (R21). -/
def windowBytes : Nat := 0x40

/-! ## Updates of the state -/

/-- The state with another memory. -/
def State.setMem (s : State) (m : Memory) : State := { s with mem := m }

/-- The state with another list of moves to come. -/
def State.setScript (s : State) (l : List Move) : State := { s with script := l }

/-- The state after a host read that returned `v`. -/
def State.setRdata (s : State) (v : Word) : State := { s with rdata := v }

/-- The state after `n` more free values were drawn. -/
def State.drew (s : State) (n : Nat) : State := { s with draws := s.draws + n }

/-- The host has read STATUS with BUSY = 0: the buffers are no longer frozen (R241). -/
def State.sawEnd (s : State) : State := { s with launch := none }

/-- The encoder holds a low nibble (R43, R105). -/
def State.setHold (s : State) (v : Nibble) : State := { s with hold := v }

/-- The nibble cursor moves past `n` nibbles (R105, R148). -/
def State.advance (s : State) (n : Nat) : State := { s with ncur := s.ncur + BitVec.ofNat 33 n }

/-- `s.prev <- v` and `s.scur <- s.scur + 1`: one sample is done (R107, R148). -/
def State.commit (s : State) (v : Byte) : State := { s with prev := v, scur := s.scur + 1 }

/-- The start of a command (R171, R172): the seed, STATUS <- BUSY, and the run state. The buffers are noted as frozen
(R241). -/
def State.start (s : State) (f : Fsm) : State :=
  { s with
    prev := 0, ncur := 0, scur := 0, hold := 0
    done := false, errCode := .none, fsm := f
    launch := some ⟨s.srcAddr.toNat, s.srcLen.toNat, s.dstAddr.toNat, s.dstCap.toNat, s.mem⟩ }

/-- The part of `finish(e)` both operations share (R111, R150): results, LAST, STATUS, IDLE. -/
def State.endWith (s : State) (e : ErrCode) (outLen consumed : Word) (hi : BitVec 1) : State :=
  { s with
    outLen := outLen, consumed := consumed, consumedHi := hi, last := s.prev
    done := true, errCode := e, fsm := .idle }

/-- STATUS <- {BUSY 0, DONE 1, ERROR 1, ERRCODE BAD_CMD} and no other change (R173, R207). -/
def State.rejectCommand (s : State) : State := { s with done := true, errCode := .badCmd }

/-! ## The memory port (R60, R71) -/

/-- `MemRead(a, 1)` of the engine; none where the access cannot complete (R71). -/
def memRead (s : State) (a : Nat) : Option Byte :=
  if inMemory s a then some (Memory.read s.mem a) else none

/-- `MemWrite(a, 1, v)` of the engine; none where the access cannot complete (R71). -/
def memWrite (s : State) (a : Nat) (v : Byte) : Option State :=
  if inMemory s a then some (s.setMem (Memory.write s.mem a v)) else none

/-- A stuck access stops the machine (R71). -/
def orStuck : Option State → Host.Outcome State Fault Refusal
  | some t => .next t
  | none => .fault .memoryStuck

/-! ## The packer (R105, R110) -/

/-- The address of the output byte that holds the nibble at the cursor (R61, R105). -/
def packAddr (s : State) : Nat := s.dstAddr.toNat + s.ncur.toNat / 2

/-- The address of the output byte of the sample at the cursor (R148). -/
def sampleAddr (s : State) : Nat := s.dstAddr.toNat + s.scur.toNat

/-- The address of the input sample at the cursor (R101). -/
def inputAddr (s : State) : Nat := s.srcAddr.toNat + s.scur.toNat

/-- EmitNibble (R105). -/
def emitNibble (v : Nibble) (s : State) : Option State :=
  if s.ncur.toNat % 2 = 0 then some ((s.setHold v).advance 1)
  else
    match memWrite s (packAddr s) (packByte s.hold v) with
    | some t => some (t.advance 1)
    | none => none

/-- `for i in 0 .. L-1: EmitNibble(c[i])` (R101). -/
def emitNibbles : List Nibble → State → Option State
  | [], s => some s
  | v :: vs, s =>
    match emitNibble v s with
    | some t => emitNibbles vs t
    | none => none

/-- Flush (R110): a held nibble is written with a zero high half. -/
def flush (s : State) : Option State :=
  if s.ncur.toNat % 2 = 1 then memWrite s (packAddr s) (packByte s.hold 0) else some s

/-! ## The end of a command (R111, R150), and an error (R200, R206) -/

/-- finish, for ENCODE (R111). -/
def finishEncode (e : ErrCode) (s : State) : Host.Outcome State Fault Refusal :=
  match flush s with
  | some t => .next (t.endWith e (BitVec.ofNat 32 ((t.ncur.toNat + 1) / 2)) t.scur 0)
  | none => .fault .memoryStuck

/-- finish, for DECODE (R150). -/
def finishDecode (e : ErrCode) (s : State) : Host.Outcome State Fault Refusal :=
  .next (s.endWith e s.scur (s.ncur.extractLsb' 0 32) (s.ncur.extractLsb' 32 1))

/-- `finish(e)` of the running command. For e other than NONE this is `raise Error(e)`, the one way an error is taken:
"the running command ends through the `finish` of its family" (R13, R200, R206). There is no return from it (R211). -/
def finishCommand (e : ErrCode) (s : State) : Host.Outcome State Fault Refusal :=
  match s.fsm with
  | .idle => .refused .noCommandRunning
  | .encRun => finishEncode e s
  | .decRun => finishDecode e s

/-! ## The start of a command (R69, R171, R172) -/

/-- The first buffer precondition of R69 that the operands break, as the refusal it is; none if they meet all. -/
def startRefusal (s : State) : Option Refusal :=
  let S := s.srcAddr.toNat
  let L := s.srcLen.toNat
  let D := s.dstAddr.toNat
  let K := s.dstCap.toNat
  if 2 ^ s.addrW < S + L ∨ 2 ^ s.addrW < D + K then some .bufferWraps
  else if disjoint S L D K = false then some .buffersOverlap
  else if disjoint S L s.regBase windowBytes = false ∨ disjoint D K s.regBase windowBytes = false then
    some .bufferOverRegisters
  else none

/-- A start of ENCODE or DECODE (R171, R172): nothing while BUSY (R35). -/
def startCommand (f : Fsm) (s : State) : Host.Outcome State Fault Refusal :=
  if busy s then .next s
  else
    match startRefusal s with
    | some r => .refused r
    | none => .next (s.start f)

/-! ## The register block (R21 to R36) -/

/-- The accesses the register block takes: 32 bits, at a multiple of 4 in [0x00, 0x3C] (R32). -/
def goodAccess (offset bits : Nat) : Bool := bits == 32 && offset % 4 == 0 && offset ≤ 0x3C

/-- The registers whose value is unspecified while BUSY = 1: OUT_LEN, CONSUMED, LAST, CONSUMED_HI (R36). -/
def isResult (offset : Nat) : Bool := offset == 0x18 || offset == 0x1C || offset == 0x20 || offset == 0x24

/-- The value of a register as the register block holds it, reserved bits and offsets 0 (R21 to R31, R33). -/
def readRegister (s : State) (offset : Nat) : Word :=
  match offset with
  | 0x04 => statusWord s
  | 0x08 => s.srcAddr
  | 0x0C => s.srcLen
  | 0x10 => s.dstAddr
  | 0x14 => s.dstCap
  | 0x18 => s.outLen
  | 0x1C => s.consumed
  | 0x20 => s.last.setWidth 32
  | 0x24 => s.consumedHi.setWidth 32
  | _ => 0

/-- The stored bits of an address register: ADDR_W-1:0 (R24, R26). -/
def addressBits (s : State) (v : Word) : Word := BitVec.ofNat 32 (v.toNat % 2 ^ s.addrW)

/-- A write to a register other than CMD while IDLE: an operand is stored (R34), all else is ignored (R23, R28 to
R31, R33). -/
def writeRegister (s : State) (offset : Nat) (v : Word) : State :=
  match offset with
  | 0x08 => { s with srcAddr := addressBits s v }
  | 0x0C => { s with srcLen := v }
  | 0x10 => { s with dstAddr := addressBits s v }
  | 0x14 => { s with dstCap := v }
  | _ => s

end Sys2Proof.Machine
end

