-- ==== Sys2Proof/Machine/Operands.lean ====
section
/-! DEFINITION. The operands of the code words: nibbles of a stream, deltas, magnitudes and their classification
(20_memory.md R62; 30_encoding.md R82 to R84; 40_encoder.md R108, R109; 41_decoder.md R131 to R149). -/

namespace Sys2Proof.Machine

/-! ## Reading the packed stream -/

/-- The half of a byte that holds nibble index `k`: low if even, high if odd (R61, R62). -/
def halfOf (k : Nat) (b : Byte) : Nibble := if k % 2 = 0 then lowNibble b else highNibble b

/-- `NibbleAt(x[SRC_ADDR], k)` (R62); none where the read cannot complete (R71). -/
def nibbleAt (s : State) (k : Nat) : Option Nibble :=
  (memRead s (s.srcAddr.toNat + k / 2)).map (halfOf k)

/-- Nibble index j is available when j < 2P (R134). -/
def available (s : State) (j : Nat) : Bool := j < 2 * s.srcLen.toNat

/-- DECODE ends with NONE before it takes a code word: the count is reached (R132), or no nibble is left (R133). -/
def decodeEnds (s : State) : Bool := s.scur == s.dstCap || !available s s.ncur.toNat

/-- ENCODE ends with NONE: every input sample is encoded (R101). -/
def encodeEnds (s : State) : Bool := s.scur == s.srcLen

/-- The nibbles the decoder inspects at the cursor, in the order of R131 and R149 and no others: n0; n1 where n0 needs
it and it is available; n2 and n3 where they are needed and n3 is available. None where a read cannot complete. -/
def inspectWord (s : State) : Option (List Nibble) :=
  match nibbleAt s s.ncur.toNat with
  | none => none
  | some n0 =>
    if n0.toNat ≤ 0xC ∨ available s (s.ncur.toNat + 1) = false then some [n0]
    else
      match nibbleAt s (s.ncur.toNat + 1) with
      | none => none
      | some n1 =>
        if n0 ≠ 0xF ∨ (n1 ≠ 0xD ∧ n1 ≠ 0xE) ∨ available s (s.ncur.toNat + 3) = false then some [n0, n1]
        else
          match nibbleAt s (s.ncur.toNat + 2), nibbleAt s (s.ncur.toNat + 3) with
          | some n2, some n3 => some [n0, n1, n2, n3]
          | _, _ => none

/-! ## Deltas -/

/-- The delta of format S: `n0 - 6` (R82). -/
def shortDelta (n0 : Nibble) : Int := (n0.toNat : Int) - 6

/-- The magnitude of format M: `m + 6` (R83). -/
def midMagnitude (m : Nibble) : Nat := m.toNat + 6

/-- The magnitude of format E: `lo | (hi << 4)` (R83). -/
def escMagnitude (lo hi : Nibble) : Nat := lo.toNat + 16 * hi.toNat

/-- `-mag` for the marker 0xD, `+mag` for 0xE (R84). -/
def signedDelta : Sign → Nat → Int
  | .neg, mag => -(mag : Int)
  | .pos, mag => (mag : Int)

/-- `Delta(p, smp) = p - smp` (R108). -/
def delta (p smp : Byte) : Int := (p.toNat : Int) - (smp.toNat : Int)

/-- `v = s.prev - d` (R147). -/
def reconstruct (p : Byte) (d : Int) : Int := (p.toNat : Int) - d

/-- A sample lies in [0, 255] (R147). -/
def isSample (v : Int) : Bool := 0 ≤ v && v ≤ 255

/-- The sign marker of a delta: 0xD if d < 0, else 0xE (R103, R104). -/
def signOfDelta (d : Int) : Sign := if d < 0 then .neg else .pos

/-- Classify (R109): the emission of a delta, first match wins. -/
def classify (d : Int) : Instr :=
  let a := d.natAbs
  if a ≤ 6 then .encShort (BitVec.ofInt 4 (d + 6))
  else if a ≤ 19 then .encMid (signOfDelta d) (BitVec.ofNat 4 (a - 6))
  else .encEsc (signOfDelta d) (BitVec.ofNat 4 (a % 16)) (BitVec.ofNat 4 (a / 16))

/-! ## The steps that every code word shares -/

/-- The encoder step of R101 once Classify has given the nibbles `c` of the word: the capacity test (R106), the
emission (R105) and the commit (R107) of the sample at the cursor. -/
def emitWord (c : List Nibble) (s : State) : Host.Outcome State Fault Refusal :=
  if s.fsm ≠ .encRun then .refused .noCommandRunning
  else if encodeEnds s then finishCommand .none s
  else
    match memRead s (inputAddr s) with
    | none => .fault .memoryStuck
    | some smp =>
      if 2 * s.dstCap.toNat < s.ncur.toNat + c.length then finishCommand .overflow s
      else
        match emitNibbles c s with
        | none => .fault .memoryStuck
        | some t => .next (t.commit smp)

/-- WriteSample (R148) of a word of `len` nibbles. -/
def writeSample (len : Nat) (v : Byte) (s : State) : Host.Outcome State Fault Refusal :=
  match memWrite s (sampleAddr s) v with
  | none => .fault .memoryStuck
  | some t => .next ((t.commit v).advance len)

/-- The tests of R149 that come before an escape's second nibble is judged or a delta is used: the decoder runs, the
count is not reached, a nibble is left, and the last of the `need` nibbles the word is read by is available (R141).
Then `k` goes on. -/
def withWord (need : Nat) (k : State → Host.Outcome State Fault Refusal) (s : State) :
    Host.Outcome State Fault Refusal :=
  if s.fsm ≠ .decRun then .refused .noCommandRunning
  else if decodeEnds s then finishCommand .none s
  else if available s (s.ncur.toNat + (need - 1)) = false then finishCommand .truncated s
  else k s

/-- The decoder step of R131 for a word of `len` nibbles with delta `d`: R147 and R148. -/
def decodeDelta (len : Nat) (d : Int) (s : State) : Host.Outcome State Fault Refusal :=
  withWord len
    (fun s =>
      let v := reconstruct s.prev d
      if isSample v then writeSample len (BitVec.ofInt 8 v) s else finishCommand .range s)
    s

end Sys2Proof.Machine
end

