-- ==== Sys2Proof/Machine/Commands.lean ====
section
/-! DEFINITION. The commands written to CMD (42_interface.md R170 to R173). -/

namespace Sys2Proof.Machine

/-- NOP (R170): nothing, IDLE or not. -/
def execNop (s : State) : Host.Outcome State Fault Refusal := .next s

/-- ENCODE start (R171). -/
def execStartEncode (s : State) : Host.Outcome State Fault Refusal := startCommand .encRun s

/-- DECODE start (R172). -/
def execStartDecode (s : State) : Host.Outcome State Fault Refusal := startCommand .decRun s

/-- The reserved command (R173): rejected with BAD_CMD while IDLE, ignored while BUSY (R35). -/
def execReserved (s : State) : Host.Outcome State Fault Refusal :=
  if busy s then .next s else .next s.rejectCommand

end Sys2Proof.Machine
end

