-- ==== Sys2Proof/Machine/Decoder.lean ====
section
/-! DEFINITION. The code words the decoder executes (41_decoder.md R140 to R146). -/

namespace Sys2Proof.Machine

/-- DEC.SHORT (R140). -/
def execDecShort (n0 : Nibble) (s : State) : Host.Outcome State Fault Refusal := decodeDelta 1 (shortDelta n0) s

/-- DEC.MID.NEG (R142). -/
def execDecMidNeg (m : Nibble) (s : State) : Host.Outcome State Fault Refusal :=
  decodeDelta 2 (signedDelta .neg (midMagnitude m)) s

/-- DEC.MID.POS (R143). -/
def execDecMidPos (m : Nibble) (s : State) : Host.Outcome State Fault Refusal :=
  decodeDelta 2 (signedDelta .pos (midMagnitude m)) s

/-- DEC.ESC.NEG (R144). -/
def execDecEscNeg (lo hi : Nibble) (s : State) : Host.Outcome State Fault Refusal :=
  decodeDelta 4 (signedDelta .neg (escMagnitude lo hi)) s

/-- DEC.ESC.BAD (R145): BAD_ESCAPE, but TRUNCATED first if its second nibble is not available (R149). -/
def execDecEscBad (_n1 : Nibble) (s : State) : Host.Outcome State Fault Refusal :=
  withWord 2 (finishCommand .badEscape) s

/-- DEC.ESC.POS (R146). -/
def execDecEscPos (lo hi : Nibble) (s : State) : Host.Outcome State Fault Refusal :=
  decodeDelta 4 (signedDelta .pos (escMagnitude lo hi)) s

end Sys2Proof.Machine
end

