-- ==== Sys2Proof/Machine/Encoder.lean ====
section
/-! DEFINITION. The code words the encoder emits (40_encoder.md R102 to R104). Log entry 15: the sample committed is
the one at the cursor, whose delta the engine classified. -/

namespace Sys2Proof.Machine

/-- ENC.SHORT (R102). -/
def execEncShort (v : Nibble) (s : State) : Host.Outcome State Fault Refusal := emitWord [v] s

/-- ENC.MID (R103). -/
def execEncMid (sgn : Sign) (m : Nibble) (s : State) : Host.Outcome State Fault Refusal :=
  emitWord [signMarker sgn, m] s

/-- ENC.ESC (R104). -/
def execEncEsc (sgn : Sign) (lo hi : Nibble) (s : State) : Host.Outcome State Fault Refusal :=
  emitWord [escapeMarker, signMarker sgn, lo, hi] s

end Sys2Proof.Machine
end

