-- ==== Sys2Proof/Machine/Dispatch.lean ====
section
/-! DEFINITION. The meaning of every instruction: one arm per constructor of Instr. -/

namespace Sys2Proof.Machine

def exec (i : Instr) (s : State) : Host.Outcome State Fault Refusal :=
  match i with
  -- the code words the decoder executes
  | .decShort n0 => Sys2Proof.Machine.execDecShort n0 s
  | .decMidNeg m => Sys2Proof.Machine.execDecMidNeg m s
  | .decMidPos m => Sys2Proof.Machine.execDecMidPos m s
  | .decEscNeg lo hi => Sys2Proof.Machine.execDecEscNeg lo hi s
  | .decEscBad n1 => Sys2Proof.Machine.execDecEscBad n1 s
  | .decEscPos lo hi => Sys2Proof.Machine.execDecEscPos lo hi s
  -- the code words the encoder emits
  | .encShort v => Sys2Proof.Machine.execEncShort v s
  | .encMid sgn m => Sys2Proof.Machine.execEncMid sgn m s
  | .encEsc sgn lo hi => Sys2Proof.Machine.execEncEsc sgn lo hi s
  -- the commands
  | .nop => Sys2Proof.Machine.execNop s
  | .startEncode => Sys2Proof.Machine.execStartEncode s
  | .startDecode => Sys2Proof.Machine.execStartDecode s
  | .reserved => Sys2Proof.Machine.execReserved s

end Sys2Proof.Machine
end

