-- ==== Sys2Proof/Machine/Engine.lean ====
section
/-! DEFINITION. The CORE engine: which instruction its next step runs (40_encoder.md R101, 41_decoder.md R131,
10_state.md R44), and a command run to its end. -/

namespace Sys2Proof.Machine

/-- EncStep (R101): the end of the input, or the emission that Classify (R109) gives for the sample at the cursor. -/
def encodeStep (s : State) : Host.Outcome State Fault Refusal :=
  if encodeEnds s then finishCommand .none s
  else
    match memRead s (inputAddr s) with
    | none => .fault .memoryStuck
    | some smp => exec (classify (delta s.prev smp)) s

/-- DecStep (R131): the end of the output or of the stream (R132, R133), or the code word at the cursor. -/
def decodeStep (s : State) : Host.Outcome State Fault Refusal :=
  if decodeEnds s then finishCommand .none s
  else
    match inspectWord s with
    | none => .fault .memoryStuck
    | some ns => exec (decodeWindow (windowOf ns)) s

/-- One engine step (R178 (b)). In IDLE "the CORE engine takes no step" (R44): nothing changes. -/
def engineStep (s : State) : Host.Outcome State Fault Refusal :=
  match s.fsm with
  | .idle => .next s
  | .encRun => encodeStep s
  | .decRun => decodeStep s

/-- The engine alone, for at most `n` steps, until no command runs or it is stuck. -/
def runEngine : Nat → State → State
  | 0, s => s
  | n + 1, s =>
    if busy s then
      match engineStep s with
      | .next t => runEngine n t
      | .fault _ => s
      | .refused _ => s
    else s

/-- As many steps as the running command can still take: N + 1 for ENCODE (R112), M + 1 for DECODE (R151), less the
samples done. -/
def stepsLeft (s : State) : Nat :=
  match s.fsm with
  | .idle => 0
  | .encRun => s.srcLen.toNat - s.scur.toNat + 1
  | .decRun => s.dstCap.toNat - s.scur.toNat + 1

/-- The state in which the running command ends if nothing disturbs it. -/
def atEnd (s : State) : State := runEngine (stepsLeft s) s

/-- The address is in the output buffer of the running command (R64). -/
def inOutput (s : State) (a : Nat) : Bool := inBuffer s.dstAddr.toNat s.dstCap.toNat a

/-- Memory before the latest command started; where none is noted, memory as it is. -/
def memBefore (s : State) : Memory :=
  match s.launch with
  | some l => l.before
  | none => s.mem

/-- The value of an output byte that may be old or final: the byte before the command, or the byte the command leaves,
as the `n`-th free choice says (R75, R231). Log entry 8. -/
def oldOrFinal (s : State) (n a : Nat) : Byte :=
  if Config.freeChoice n then Memory.read (atEnd s).mem a else Memory.read (memBefore s) a

/-! ## Placing an instruction for the next step to run -/

/-- The machine with the code word of the two packed bytes at the start of a running DECODE whose stream they are, for
the engine to take next: P = 2, one sample of output after the stream. Log entry 17. -/
def placeCodeWord (s : State) (b0 b1 : Byte) : State :=
  { s with
    srcAddr := 0, srcLen := 2, dstAddr := 2, dstCap := 1
    ncur := 0, scur := 0, fsm := .decRun, done := false, errCode := .none
    script := []
    launch := some ⟨0, 2, 2, 1, s.mem⟩
    mem := Memory.write (Memory.write s.mem 0 b0) 1 b1 }

/-- The machine with a CMD write as the host's next move. Log entry 17. -/
def placeCommand (s : State) (v : Word) : State := s.setScript (.regWrite 0x00 32 v :: s.script)

/-- The machine about to run the instruction of a table word, as `decodeTableWord` reads it. -/
def placeTableWord (s : State) (nbits w : Nat) : State :=
  if nbits ≤ 16 then placeCodeWord s (BitVec.ofNat 8 w) (BitVec.ofNat 8 (w / 256))
  else placeCommand s (BitVec.ofNat 32 w)

end Sys2Proof.Machine
end

