-- ==== Sys2Proof/Machine/Host.lean ====
section
/-! DEFINITION. The host's moves (10_state.md R32 to R36; 42_interface.md R170 to R180; 20_memory.md R75;
70_reset_and_hazards.md R230, R231, R241), and the move the machine makes next (R178). -/

namespace Sys2Proof.Machine

/-- A host write to the register block. A write to CMD performs the command (R22), which does nothing while BUSY; while
BUSY every other write is ignored too (R35). -/
def regWrite (offset bits : Nat) (v : Word) (s : State) : Host.Outcome State Fault Refusal :=
  if goodAccess offset bits = false then .refused .badRegisterAccess
  else if offset = 0x00 then exec (decodeCommand v) s
  else if busy s then .next s
  else .next (writeRegister s offset v)

/-- What the host learns from a read of STATUS: with BUSY = 0 the command has ended, and its buffers are the host's
again (R241). -/
def statusSeen (s : State) : State := if busy s then s else s.sawEnd

/-- A host read of the register block. It has no side effect on the CORE (R33); a result register returns a free value
while BUSY (R36). Log entries 5, 7. -/
def regRead (offset bits : Nat) (s : State) : Host.Outcome State Fault Refusal :=
  if goodAccess offset bits = false then .refused .badRegisterAccess
  else if busy s && isResult offset then .next ((s.setRdata (Config.freeWord s.draws)).drew 1)
  else if offset = 0x04 then .next (statusSeen (s.setRdata (statusWord s)))
  else .next (s.setRdata (readRegister s offset))

/-- The address lies in the register window (R21). -/
def inWindow (s : State) (a : Nat) : Bool := inBuffer s.regBase windowBytes a

/-- The address lies in a frozen buffer (R241). -/
def frozen (s : State) (a : Nat) : Bool :=
  match s.launch with
  | some l => inBuffer l.src l.len a || inBuffer l.dst l.cap a
  | none => false

/-- A host write of a byte of memory (R60, R180). A byte access to the register window is a register access of another
width (R32): log entry 12. -/
def hostWrite (a : Nat) (v : Byte) (s : State) : Host.Outcome State Fault Refusal :=
  if inWindow s a then .refused .badRegisterAccess
  else if frozen s a then .refused .frozenBuffer
  else if inMemory s a then .next (s.setMem (Memory.write s.mem a v))
  else .fault .noSuchAddress

/-- A host read of a byte of memory (R60, R180); of the running command's output buffer, the old or the final byte
(R75). -/
def hostRead (a : Nat) (s : State) : Host.Outcome State Fault Refusal :=
  if inWindow s a then .refused .badRegisterAccess
  else if inMemory s a = false then .fault .noSuchAddress
  else if busy s && inOutput s a then .next ((s.setRdata ((oldOrFinal s s.draws a).setWidth 32)).drew 1)
  else .next (s.setRdata ((Memory.read s.mem a).setWidth 32))

/-- The output bytes of the running command that differ, or may, between memory before it and after it. -/
def outputTouched (s : State) : List Nat :=
  ((memBefore s ++ (atEnd s).mem ++ s.mem).map Prod.fst).filter (fun a => inOutput s a)

/-- Memory after a reset while a command runs: "Each byte of the running command's output buffer holds either its value
before the command or the value the command would have written" (R231). Output byte i takes free choice draws + i.
Log entry 9. -/
def memAfterReset (s : State) : Memory :=
  Memory.overwrite s.mem (outputTouched s) (fun a => oldOrFinal s (s.draws + (a - s.dstAddr.toNat)) a)

/-- Reset (R230, R231): every piece of state of the CORE as R48 says; memory is not written, but the output of an
abandoned command is old or final. The host's moves to come and what it read are not the CORE's: log entry 25. -/
def resetCore (s : State) : State :=
  { State.resetWith s.addrW s.regBase with
    mem := if busy s then memAfterReset s else s.mem
    script := s.script
    rdata := s.rdata
    draws := if busy s then s.draws + s.dstCap.toNat else s.draws }

/-- One move, already taken off the script. POLL that finds BUSY = 1 stays the next move and lets the engine step
(R92): log entry 4. -/
def makeMove (m : Move) (s : State) : Host.Outcome State Fault Refusal :=
  match m with
  | .engine => engineStep s
  | .regWrite offset bits v => regWrite offset bits v s
  | .regRead offset bits => regRead offset bits s
  | .poll => if busy s then engineStep (s.setScript (.poll :: s.script)) else regRead 0x04 32 s
  | .memWrite a v => hostWrite a v s
  | .memRead a => hostRead a s
  | .reset => .next (resetCore s)

/-- The move the machine makes next: the script's first, or, when the host makes no more moves, the engine's (R178: the
engine eventually steps; R230: in IDLE it waits). -/
def nextMove (s : State) : Host.Outcome State Fault Refusal :=
  match s.script with
  | [] => engineStep s
  | m :: rest => makeMove m (s.setScript rest)

end Sys2Proof.Machine
end

