-- ==== Sys2Proof/Machine/Step.lean ====
section
/-! DEFINITION. One step of the machine: one move of R178. -/

namespace Sys2Proof.Machine

/-- One step: the move the script or the engine makes next. -/
def step (s : State) : Host.Outcome State Fault Refusal := nextMove s

/-- `s` with the instruction of a table word where the next step takes its instruction from: the packed stream of a
running DECODE, or the host's next CMD write. Log entry 17. -/
def State.withFetchWord (s : State) (nbits w : Nat) : State := placeTableWord s nbits w

end Sys2Proof.Machine
end

