-- ==== Sys2Proof/Safety.lean ====
section
/-! DEFINITION. The invariant of the machine, and the codec as functions on lists of samples and nibbles, in the terms
the statements use (10_state.md R23, R41 to R45; 20_memory.md R64, R69; 40_encoder.md R112; 41_decoder.md R153, R155;
42_interface.md R178). -/

namespace Sys2Proof.Machine

/-! ## The invariant -/

/-- Every listed address of the memory is one of its 2^ADDR_W (R60). -/
def Memory.within (m : Memory) (addrW : Nat) : Prop := ∀ c ∈ m, c.1 < 2 ^ addrW

/-- What the machine keeps from reset on. -/
structure Inv (s : State) : Prop where
  /-- 1 <= ADDR_W <= 32 (R10). -/
  addrW_range : 1 ≤ s.addrW ∧ s.addrW ≤ 32
  /-- Memory is in its canonical form and has no byte past 2^ADDR_W (R60). -/
  mem_ok : Memory.wf s.mem ∧ Memory.within s.mem s.addrW
  /-- SRC_ADDR and DST_ADDR store bits ADDR_W-1:0 only (R24, R26). -/
  addr_bits : s.srcAddr.toNat < 2 ^ s.addrW ∧ s.dstAddr.toNat < 2 ^ s.addrW
  /-- BUSY = 1 implies DONE = 0, ERROR = 0 and ERRCODE = 0 (R23). -/
  busy_status : s.fsm ≠ .idle → s.done = false ∧ s.errCode = .none
  /-- An error is shown with DONE = 1 (R37). -/
  error_done : s.errCode ≠ .none → s.done = true
  /-- A running command's operands meet R69. -/
  busy_buffers : s.fsm ≠ .idle → startRefusal s = none
  /-- A running command's buffers are the frozen ones (R241), and memory before it was in order. -/
  busy_launch : s.fsm ≠ .idle → ∃ l, s.launch = some l ∧ l.src = s.srcAddr.toNat ∧ l.len = s.srcLen.toNat ∧
    l.dst = s.dstAddr.toNat ∧ l.cap = s.dstCap.toNat ∧ Memory.wf l.before ∧ Memory.within l.before s.addrW
  /-- In ENCODE `s.scur` never exceeds N and `s.ncur` never exceeds 2C (R42, R45). -/
  enc_cursors : s.fsm = .encRun → s.scur.toNat ≤ s.srcLen.toNat ∧ s.ncur.toNat ≤ 2 * s.dstCap.toNat
  /-- In DECODE `s.scur` never exceeds M and `s.ncur` never exceeds 2P (R42, R45, R151). -/
  dec_cursors : s.fsm = .decRun → s.scur.toNat ≤ s.dstCap.toNat ∧ s.ncur.toNat ≤ 2 * s.srcLen.toNat

/-- The next move is the engine's, and `u` is the state it steps on (R178): the host makes no more moves, the script says
so, or the host polls while BUSY. Log entries 3, 4. -/
def engineTurn (s u : State) : Prop :=
  (s.script = [] ∧ u = s) ∨ (∃ rest, s.script = .engine :: rest ∧ u = { s with script := rest }) ∨
    (∃ rest, s.script = .poll :: rest ∧ s.fsm ≠ .idle ∧ u = s)

/-- A command has just started: the cursors and the seed of R232. -/
def fresh (s : State) : Prop := s.ncur = 0 ∧ s.scur = 0 ∧ s.prev = 0

/-! ## The codec on lists -/

/-- The `len` bytes of memory from `base`. -/
def bytesAt (m : Memory) (base len : Nat) : List Byte := (List.range len).map (fun i => Memory.read m (base + i))

/-- The nibbles of the code word for a sample after `p` (R108, R109). -/
def sampleWord (p smp : Byte) : List Nibble := wordNibbles (classify (delta p smp))

/-- The nibble stream of samples, the sample before them being `p` (R101). -/
def streamOf : Byte → List Byte → List Nibble
  | _, [] => []
  | p, x :: xs => sampleWord p x ++ streamOf x xs

/-- T_k of R112: the total length in nibbles of the code words of samples 0..k-1. -/
def prefixNibbles (xs : List Byte) (k : Nat) : Nat := (streamOf 0 (xs.take k)).length

/-- The k-th nibble of the packed stream at `base` (R61). -/
def memNibble (m : Memory) (base k : Nat) : Nibble := halfOf k (Memory.read m (base + k / 2))

/-- Memory from `base` holds the packed stream of `ns`, "with a 0 pad" when their number is odd (R112). -/
def holdsStream (m : Memory) (base : Nat) (ns : List Nibble) : Prop :=
  (∀ k < ns.length, memNibble m base k = nibbleOr0 ns k) ∧
    (ns.length % 2 = 1 → memNibble m base ns.length = 0)

/-- The delta a decoder's code word stands for (R82 to R84); none for what has no delta. -/
def wordDelta : Instr → Option Int
  | .decShort n0 => some (shortDelta n0)
  | .decMidNeg m => some (signedDelta .neg (midMagnitude m))
  | .decMidPos m => some (signedDelta .pos (midMagnitude m))
  | .decEscNeg lo hi => some (signedDelta .neg (escMagnitude lo hi))
  | .decEscBad _ => none
  | .decEscPos lo hi => some (signedDelta .pos (escMagnitude lo hi))
  | .encShort _ => none
  | .encMid _ _ => none
  | .encEsc _ _ _ => none
  | .nop => none
  | .startEncode => none
  | .startDecode => none
  | .reserved => none

/-- The samples that code words of the decoder stand for, the sample before them being `p` (R147); none if a word has
no delta or a sample is out of range. -/
def samplesOf : Byte → List Instr → Option (List Byte)
  | _, [] => some []
  | p, i :: is =>
    match wordDelta i with
    | none => none
    | some d =>
      let v := reconstruct p d
      if isSample v then (samplesOf (BitVec.ofInt 8 v) is).map (BitVec.ofInt 8 v :: ·) else none

end Sys2Proof.Machine
end

