-- ==== Sys2Proof/Certificates/Slice0/Obligations.lean ====
section
/-! DEFINITION. The statements for the provers. Each says which rule of spec/ it formalises; where one rests on a choice of
the model, its docstring names the log entry. -/

open Sys2Proof Sys2Proof.Machine

/-! ## Encodings -/

/-- Decoding an encoded well-formed instruction of any of the three languages gives it back, with every operand at
every value its encoding admits (R80 to R87, R90). -/
def Obligations.DecodeEncode : Prop :=
  ∀ i : Instr, wellFormed i = true → decode (encode i) = .ok i

/-- R81, "Rows marked `decode` are the decoder's table: for every W, exactly one of them matches", and it is the row
of the instruction the decoder gives. -/
def Obligations.DecodeRowsPartition : Prop :=
  ∀ w : Window, decodeRows.filter (fun r => rowMatches r (w.setWidth 32)) = [rowOf (decodeWindow w)]

/-- R85: a run of nibbles starts with a code word in exactly one way: the decoder gives the word `i` and the rest
exactly when `i` is a well-formed code word of the decoder and the run is its nibbles and then the rest. -/
def Obligations.ParseUnique : Prop :=
  ∀ (ns rest : List Nibble) (i : Instr),
    decodeNibbles ns = .ok (i, rest) ↔
      0 < inspectedNibbles i ∧ wellFormed i = true ∧ ns = wordNibbles i ++ rest

/-- R90: decoding a CMD word looks only at OP = CMD[1:0]. -/
def Obligations.CommandByOp : Prop :=
  ∀ (hi : BitVec 30),
    decodeCommand (hi ++ (0 : BitVec 2)) = .nop ∧
    decodeCommand (hi ++ (1 : BitVec 2)) = .startEncode ∧
    decodeCommand (hi ++ (2 : BitVec 2)) = .startDecode ∧
    decodeCommand (hi ++ (3 : BitVec 2)) = .reserved

/-- A few words written out from the spec's encodings decode to what they stand for: packed bytes of R86, R140 to
R146 with the low nibble first (R61), emissions of R102 to R104, and CMD words of R90. -/
def Obligations.DecodeWords : Prop :=
  decodeBytes [0x6C] = .ok (.decShort 0xC, [0x6]) ∧
  decodeBytes [0xFD] = .ok (.decMidNeg 0xF, []) ∧
  decodeBytes [0x2E] = .ok (.decMidPos 0x2, []) ∧
  decodeBytes [0xDF, 0x1F] = .ok (.decEscNeg 0xF 0x1, []) ∧
  decodeBytes [0xEF, 0x64] = .ok (.decEscPos 0x4 0x6, []) ∧
  decodeBytes [0x5F] = .ok (.decEscBad 0x5, []) ∧
  decodeBytes [0xDF] = .error .truncated ∧
  decodeEmission [0xD, 0xA] = .ok (.encMid .neg 0xA) ∧
  decodeEmission [0xF, 0xE, 0x4, 0x1] = .ok (.encEsc .pos 0x4 0x1) ∧
  decodeEmission [0xE, 0xE] = .error .neverEmitted ∧
  decodeCommand 0xFFFFFFFD = .startEncode

/-- R108 and R114: every delta of two bytes lies in [-255, 255], and R109 with R86: Classify gives a word the encoder
emits, of 1, 2 or 4 nibbles by the size of the delta. -/
def Obligations.ClassifyEmits : Prop :=
  ∀ p smp : Byte,
    -255 ≤ delta p smp ∧ delta p smp ≤ 255 ∧
    wellFormed (classify (delta p smp)) = true ∧
    decodeEmission (sampleWord p smp) = .ok (classify (delta p smp)) ∧
    (sampleWord p smp).length =
      if (delta p smp).natAbs ≤ 6 then 1 else if (delta p smp).natAbs ≤ 19 then 2 else 4

/-- R152: "For every d in [-255, 255], decoding the code word `Classify(d)` gives back d with the same length L". -/
def Obligations.CodeWordInverse : Prop :=
  ∀ d : Int, -255 ≤ d → d ≤ 255 →
    ∃ i, decodeNibbles (wordNibbles (classify d)) = .ok (i, []) ∧ wordDelta i = some d ∧
      inspectedNibbles i = (wordNibbles (classify d)).length

/-! ## A step runs the decoded instruction -/

/-- A step is: when the next move is the engine's (none scripted, an engine move scripted, or a POLL while BUSY), the
engine's step, which in DEC_RUN runs the code word the decoder reads at the cursor, in ENC_RUN the emission that Classify
gives for the sample at the cursor, and in IDLE changes nothing; with a CMD write scripted, the command its word decodes
to. A move but a waiting POLL is taken off the script. The script is the model's: log entries 3, 4. -/
def Obligations.StepRunsInstruction : Prop :=
  (∀ s u : State, engineTurn s u →
    step s = engineStep u ∧
    (u.fsm = .idle → step s = .next u) ∧
    (∀ ns, u.fsm = .decRun → u.scur ≠ u.dstCap → u.ncur.toNat < 2 * u.srcLen.toNat → inspectWord u = some ns →
      step s = exec (decodeWindow (windowOf ns)) u) ∧
    (u.fsm = .encRun → u.scur ≠ u.srcLen → u.srcAddr.toNat + u.scur.toNat < 2 ^ u.addrW →
      step s =
        exec (classify (delta u.prev (Memory.read u.mem (u.srcAddr.toNat + u.scur.toNat)))) u)) ∧
  (∀ (s : State) (rest : List Move), s.script = .engine :: rest → step s = engineStep { s with script := rest }) ∧
  (∀ (s : State) (v : Word) (rest : List Move), s.script = .regWrite 0 32 v :: rest →
    step s = exec (decodeCommand v) { s with script := rest })

/-- R63, R134, R149: the decoder inspects nibbles of the stream in order from the cursor, only available ones, all
those of the word it finds when they are available, and never one past the word. -/
def Obligations.InspectsOnlyTheWord : Prop :=
  ∀ (s : State) (ns : List Nibble), s.ncur.toNat < 2 * s.srcLen.toNat → inspectWord s = some ns →
    (∀ j < ns.length, s.ncur.toNat + j < 2 * s.srcLen.toNat ∧
      nibbleOr0 ns j = memNibble s.mem s.srcAddr.toNat (s.ncur.toNat + j)) ∧
    ns.length ≤ inspectedNibbles (decodeWindow (windowOf ns)) ∧
    (s.ncur.toNat + inspectedNibbles (decodeWindow (windowOf ns)) ≤ 2 * s.srcLen.toNat →
      ns.length = inspectedNibbles (decodeWindow (windowOf ns)))

/-! ## The commands (R170 to R173) -/

/-- R170, R22: NOP does nothing, and a CMD write with OP = 0, whatever its bits 31:2, IDLE or BUSY, changes nothing. -/
def Obligations.NopDoesNothing : Prop :=
  ∀ s : State, exec .nop s = .next s ∧
    ∀ (hi : BitVec 30) (rest : List Move), s.script = .regWrite 0 32 (hi ++ (0 : BitVec 2)) :: rest →
      step s = .next { s with script := rest }

/-- R173, R207: the reserved command, while IDLE, sets STATUS to DONE, ERROR, BAD_CMD and changes nothing else; while
BUSY it is ignored. So does a CMD write with OP = 3, whatever its bits 31:2. -/
def Obligations.ReservedRejected : Prop :=
  ∀ s : State,
    (s.fsm = .idle →
      exec .reserved s = .next { s with done := true, errCode := .badCmd } ∧
      statusWord { s with done := true, errCode := .badCmd } = 0x00000056) ∧
    (s.fsm ≠ .idle → exec .reserved s = .next s) ∧
    ∀ (hi : BitVec 30) (rest : List Move), s.script = .regWrite 0 32 (hi ++ (3 : BitVec 2)) :: rest →
      step s = exec .reserved { s with script := rest }

/-- R171, R172: while IDLE, with operands that meet R69 (neither buffer wraps, two non-empty buffers do not overlap,
no non-empty buffer overlaps the register window), ENCODE and DECODE set the seed and the cursors to 0, STATUS to BUSY
alone and the run state. The last field notes the frozen buffers (log entry 10). -/
def Obligations.StartCompletes : Prop :=
  ∀ s : State, s.fsm = .idle →
    s.srcAddr.toNat + s.srcLen.toNat ≤ 2 ^ s.addrW → s.dstAddr.toNat + s.dstCap.toNat ≤ 2 ^ s.addrW →
    (s.srcLen = 0 ∨ s.dstCap = 0 ∨ s.srcAddr.toNat + s.srcLen.toNat ≤ s.dstAddr.toNat ∨
      s.dstAddr.toNat + s.dstCap.toNat ≤ s.srcAddr.toNat) →
    (s.srcLen = 0 ∨ s.srcAddr.toNat + s.srcLen.toNat ≤ s.regBase ∨ s.regBase + 0x40 ≤ s.srcAddr.toNat) →
    (s.dstCap = 0 ∨ s.dstAddr.toNat + s.dstCap.toNat ≤ s.regBase ∨ s.regBase + 0x40 ≤ s.dstAddr.toNat) →
    let l : Launch := ⟨s.srcAddr.toNat, s.srcLen.toNat, s.dstAddr.toNat, s.dstCap.toNat, s.mem⟩
    exec .startEncode s = .next
      { s with prev := 0, ncur := 0, scur := 0, hold := 0, done := false, errCode := .none, fsm := .encRun,
               launch := some l } ∧
    exec .startDecode s = .next
      { s with prev := 0, ncur := 0, scur := 0, hold := 0, done := false, errCode := .none, fsm := .decRun,
               launch := some l }

/-- R69: while IDLE, a start whose operands break (a), (b) or (c) is refused, each by its own name, and an earlier
one first. The names and the order are the model's: log entry 18. -/
def Obligations.StartRefused : Prop :=
  ∀ (s : State) (i : Instr), s.fsm = .idle → i = .startEncode ∨ i = .startDecode →
    let a := 2 ^ s.addrW < s.srcAddr.toNat + s.srcLen.toNat ∨ 2 ^ s.addrW < s.dstAddr.toNat + s.dstCap.toNat
    let b := 0 < s.srcLen.toNat ∧ 0 < s.dstCap.toNat ∧ s.dstAddr.toNat < s.srcAddr.toNat + s.srcLen.toNat ∧
      s.srcAddr.toNat < s.dstAddr.toNat + s.dstCap.toNat
    let c := (0 < s.srcLen.toNat ∧ s.regBase < s.srcAddr.toNat + s.srcLen.toNat ∧
        s.srcAddr.toNat < s.regBase + 0x40) ∨
      (0 < s.dstCap.toNat ∧ s.regBase < s.dstAddr.toNat + s.dstCap.toNat ∧ s.dstAddr.toNat < s.regBase + 0x40)
    (a → exec i s = .refused .bufferWraps) ∧
    (¬a → b → exec i s = .refused .buffersOverlap) ∧
    (¬a → ¬b → c → exec i s = .refused .bufferOverRegisters)

/-- The frame of the commands (R170 to R173, R232): whatever a command does, parameters, operand and result registers,
memory and the host's side are unchanged; NOP and the reserved command leave the engine's state and the noted launch
as they were. -/
def Obligations.CommandFrame : Prop :=
  ∀ (i : Instr) (s t : State), i = .nop ∨ i = .startEncode ∨ i = .startDecode ∨ i = .reserved → exec i s = .next t →
    t.addrW = s.addrW ∧ t.regBase = s.regBase ∧ t.srcAddr = s.srcAddr ∧ t.srcLen = s.srcLen ∧
    t.dstAddr = s.dstAddr ∧ t.dstCap = s.dstCap ∧ t.outLen = s.outLen ∧ t.consumed = s.consumed ∧
    t.consumedHi = s.consumedHi ∧ t.last = s.last ∧ t.script = s.script ∧ t.rdata = s.rdata ∧ t.draws = s.draws ∧
    (∀ a, Memory.read t.mem a = Memory.read s.mem a) ∧
    (i = .nop ∨ i = .reserved → t.fsm = s.fsm ∧ t.prev = s.prev ∧ t.ncur = s.ncur ∧ t.scur = s.scur ∧
      t.hold = s.hold ∧ t.launch = s.launch)

/-! ## The code words of the decoder (R140 to R150) -/

/-- R140, R147, R148: DEC.SHORT with n0 = d + 6 writes the sample prev - d and commits one nibble. -/
def Obligations.DecShortCompletes : Prop :=
  ∀ (s : State) (n0 : Nibble), s.fsm = .decRun → s.scur ≠ s.dstCap →
    s.ncur.toNat + 1 ≤ 2 * s.srcLen.toNat → s.dstAddr.toNat + s.scur.toNat < 2 ^ s.addrW →
    n0.toNat ≤ s.prev.toNat + 6 → s.prev.toNat + 6 ≤ 255 + n0.toNat →
    let v : Byte := BitVec.ofNat 8 (s.prev.toNat + 6 - n0.toNat)
    exec (.decShort n0) s = .next
      { s with mem := Memory.write s.mem (s.dstAddr.toNat + s.scur.toNat) v, prev := v, scur := s.scur + 1,
               ncur := s.ncur + 1 }

/-- R142, R147, R148: DEC.MID.NEG writes the sample prev + (m + 6) and commits two nibbles, for every m. -/
def Obligations.DecMidNegCompletes : Prop :=
  ∀ (s : State) (m : Nibble), s.fsm = .decRun → s.scur ≠ s.dstCap →
    s.ncur.toNat + 2 ≤ 2 * s.srcLen.toNat → s.dstAddr.toNat + s.scur.toNat < 2 ^ s.addrW →
    s.prev.toNat + (m.toNat + 6) ≤ 255 →
    let v : Byte := BitVec.ofNat 8 (s.prev.toNat + (m.toNat + 6))
    exec (.decMidNeg m) s = .next
      { s with mem := Memory.write s.mem (s.dstAddr.toNat + s.scur.toNat) v, prev := v, scur := s.scur + 1,
               ncur := s.ncur + 2 }

/-- R143, R147, R148: DEC.MID.POS writes the sample prev - (m + 6) and commits two nibbles, for every m. -/
def Obligations.DecMidPosCompletes : Prop :=
  ∀ (s : State) (m : Nibble), s.fsm = .decRun → s.scur ≠ s.dstCap →
    s.ncur.toNat + 2 ≤ 2 * s.srcLen.toNat → s.dstAddr.toNat + s.scur.toNat < 2 ^ s.addrW →
    m.toNat + 6 ≤ s.prev.toNat →
    let v : Byte := BitVec.ofNat 8 (s.prev.toNat - (m.toNat + 6))
    exec (.decMidPos m) s = .next
      { s with mem := Memory.write s.mem (s.dstAddr.toNat + s.scur.toNat) v, prev := v, scur := s.scur + 1,
               ncur := s.ncur + 2 }

/-- R144, R147, R148: DEC.ESC.NEG writes the sample prev + (lo | hi << 4) and commits four nibbles. -/
def Obligations.DecEscNegCompletes : Prop :=
  ∀ (s : State) (lo hi : Nibble), s.fsm = .decRun → s.scur ≠ s.dstCap →
    s.ncur.toNat + 4 ≤ 2 * s.srcLen.toNat → s.dstAddr.toNat + s.scur.toNat < 2 ^ s.addrW →
    s.prev.toNat + (lo.toNat + 16 * hi.toNat) ≤ 255 →
    let v : Byte := BitVec.ofNat 8 (s.prev.toNat + (lo.toNat + 16 * hi.toNat))
    exec (.decEscNeg lo hi) s = .next
      { s with mem := Memory.write s.mem (s.dstAddr.toNat + s.scur.toNat) v, prev := v, scur := s.scur + 1,
               ncur := s.ncur + 4 }

/-- R146, R147, R148: DEC.ESC.POS writes the sample prev - (lo | hi << 4) and commits four nibbles. -/
def Obligations.DecEscPosCompletes : Prop :=
  ∀ (s : State) (lo hi : Nibble), s.fsm = .decRun → s.scur ≠ s.dstCap →
    s.ncur.toNat + 4 ≤ 2 * s.srcLen.toNat → s.dstAddr.toNat + s.scur.toNat < 2 ^ s.addrW →
    lo.toNat + 16 * hi.toNat ≤ s.prev.toNat →
    let v : Byte := BitVec.ofNat 8 (s.prev.toNat - (lo.toNat + 16 * hi.toNat))
    exec (.decEscPos lo hi) s = .next
      { s with mem := Memory.write s.mem (s.dstAddr.toNat + s.scur.toNat) v, prev := v, scur := s.scur + 1,
               ncur := s.ncur + 4 }

/-- R145, R150: DEC.ESC.BAD with its two nibbles available ends DECODE with BAD_ESCAPE; the samples before stand, the
cursor stays at the escape, nothing is written. -/
def Obligations.DecEscBadCompletes : Prop :=
  ∀ (s : State) (n1 : Nibble), s.fsm = .decRun → s.scur ≠ s.dstCap → s.ncur.toNat + 2 ≤ 2 * s.srcLen.toNat →
    exec (.decEscBad n1) s = .next
      { s with outLen := s.scur, consumed := s.ncur.extractLsb' 0 32, consumedHi := s.ncur.extractLsb' 32 1,
               last := s.prev, done := true, errCode := .badEscape, fsm := .idle }

/-- R141, R149, R150: a MID word whose second nibble is not available, an escape whose fourth is not, and an illegal
escape whose second is not, end DECODE with TRUNCATED, whatever the sample would be. -/
def Obligations.TruncatedEndsDecode : Prop :=
  ∀ (s : State) (i : Instr), s.fsm = .decRun → s.scur ≠ s.dstCap → s.ncur.toNat < 2 * s.srcLen.toNat →
    2 * s.srcLen.toNat < s.ncur.toNat + inspectedNibbles i →
    exec i s = .next
      { s with outLen := s.scur, consumed := s.ncur.extractLsb' 0 32, consumedHi := s.ncur.extractLsb' 32 1,
               last := s.prev, done := true, errCode := .truncated, fsm := .idle }

/-- R147, R150: a whole code word whose sample prev - d is outside [0, 255] ends DECODE with RANGE and writes
nothing. -/
def Obligations.RangeEndsDecode : Prop :=
  ∀ (s : State) (i : Instr) (d : Int), s.fsm = .decRun → s.scur ≠ s.dstCap →
    s.ncur.toNat + inspectedNibbles i ≤ 2 * s.srcLen.toNat → wordDelta i = some d →
    (s.prev.toNat : Int) - d < 0 ∨ 255 < (s.prev.toNat : Int) - d →
    exec i s = .next
      { s with outLen := s.scur, consumed := s.ncur.extractLsb' 0 32, consumedHi := s.ncur.extractLsb' 32 1,
               last := s.prev, done := true, errCode := .range, fsm := .idle }

/-- R132, R133, R150: when the count is reached, or no nibble is left, the next engine step ends DECODE with NONE. The
three forms of an engine step are log entries 3 and 4. -/
def Obligations.DecodeEndsWithNone : Prop :=
  ∀ s u : State, engineTurn s u → u.fsm = .decRun → u.scur = u.dstCap ∨ 2 * u.srcLen.toNat ≤ u.ncur.toNat →
    step s = .next
      { u with outLen := u.scur, consumed := u.ncur.extractLsb' 0 32, consumedHi := u.ncur.extractLsb' 32 1,
               last := u.prev, done := true, errCode := .none, fsm := .idle }

/-- The frame of the decoder's code words (R64, R147, R148, R150): parameters, operands, `s.hold` and the host's side
are unchanged. A step that goes on changes no result register and stores one byte, at DST_ADDR + s.scur. A step that
ends the command stores nothing and leaves `s.prev` and the cursors. -/
def Obligations.DecoderFrame : Prop :=
  ∀ (i : Instr) (s t : State), 0 < inspectedNibbles i → exec i s = .next t →
    t.addrW = s.addrW ∧ t.regBase = s.regBase ∧ t.srcAddr = s.srcAddr ∧ t.srcLen = s.srcLen ∧
    t.dstAddr = s.dstAddr ∧ t.dstCap = s.dstCap ∧ t.hold = s.hold ∧ t.script = s.script ∧ t.rdata = s.rdata ∧
    t.launch = s.launch ∧ t.draws = s.draws ∧
    ((t.fsm = .decRun ∧ t.outLen = s.outLen ∧ t.consumed = s.consumed ∧ t.consumedHi = s.consumedHi ∧
        t.last = s.last ∧ t.done = s.done ∧ t.errCode = s.errCode ∧
        ∀ a, a ≠ sampleAddr s → Memory.read t.mem a = Memory.read s.mem a) ∨
      (t.fsm = .idle ∧ t.prev = s.prev ∧ t.ncur = s.ncur ∧ t.scur = s.scur ∧
        ∀ a, Memory.read t.mem a = Memory.read s.mem a))

/-! ## The code words of the encoder (R101 to R111) -/

/-- R102, R105, R107: ENC.SHORT emits its nibble. At an even cursor it is held; at an odd one it completes the byte of
the held nibble. The sample at the cursor is committed (log entry 15). -/
def Obligations.EncShortCompletes : Prop :=
  ∀ (s : State) (v : Nibble), s.fsm = .encRun → s.scur ≠ s.srcLen →
    s.srcAddr.toNat + s.scur.toNat < 2 ^ s.addrW → s.ncur.toNat + 1 ≤ 2 * s.dstCap.toNat →
    s.dstAddr.toNat + s.dstCap.toNat ≤ 2 ^ s.addrW →
    let smp := Memory.read s.mem (s.srcAddr.toNat + s.scur.toNat)
    let A := s.dstAddr.toNat + s.ncur.toNat / 2
    (s.ncur.toNat % 2 = 0 → exec (.encShort v) s = .next
      { s with hold := v, ncur := s.ncur + 1, prev := smp, scur := s.scur + 1 }) ∧
    (s.ncur.toNat % 2 = 1 → exec (.encShort v) s = .next
      { s with mem := Memory.write s.mem A (v ++ s.hold), ncur := s.ncur + 1, prev := smp, scur := s.scur + 1 })

/-- R103, R105, R107: ENC.MID emits the sign marker (0xD or 0xE) and m. Log entry 15. -/
def Obligations.EncMidCompletes : Prop :=
  ∀ (s : State) (sgn : Sign) (m : Nibble), s.fsm = .encRun → s.scur ≠ s.srcLen →
    s.srcAddr.toNat + s.scur.toNat < 2 ^ s.addrW → s.ncur.toNat + 2 ≤ 2 * s.dstCap.toNat →
    s.dstAddr.toNat + s.dstCap.toNat ≤ 2 ^ s.addrW →
    let smp := Memory.read s.mem (s.srcAddr.toNat + s.scur.toNat)
    let A := s.dstAddr.toNat + s.ncur.toNat / 2
    let g : Nibble := if sgn = .neg then 0xD else 0xE
    (s.ncur.toNat % 2 = 0 → exec (.encMid sgn m) s = .next
      { s with mem := Memory.write s.mem A (m ++ g), hold := g, ncur := s.ncur + 2, prev := smp,
               scur := s.scur + 1 }) ∧
    (s.ncur.toNat % 2 = 1 → exec (.encMid sgn m) s = .next
      { s with mem := Memory.write s.mem A (g ++ s.hold), hold := m, ncur := s.ncur + 2, prev := smp,
               scur := s.scur + 1 })

/-- R104, R105, R107: ENC.ESC emits 0xF, the sign marker, the low and the high nibble of the magnitude. Log entry
15. -/
def Obligations.EncEscCompletes : Prop :=
  ∀ (s : State) (sgn : Sign) (lo hi : Nibble), s.fsm = .encRun → s.scur ≠ s.srcLen →
    s.srcAddr.toNat + s.scur.toNat < 2 ^ s.addrW → s.ncur.toNat + 4 ≤ 2 * s.dstCap.toNat →
    s.dstAddr.toNat + s.dstCap.toNat ≤ 2 ^ s.addrW →
    let smp := Memory.read s.mem (s.srcAddr.toNat + s.scur.toNat)
    let A := s.dstAddr.toNat + s.ncur.toNat / 2
    let g : Nibble := if sgn = .neg then 0xD else 0xE
    (s.ncur.toNat % 2 = 0 → exec (.encEsc sgn lo hi) s = .next
      { s with mem := Memory.write (Memory.write s.mem A (g ++ (0xF : Nibble))) (A + 1) (hi ++ lo), hold := lo,
               ncur := s.ncur + 4, prev := smp, scur := s.scur + 1 }) ∧
    (s.ncur.toNat % 2 = 1 → exec (.encEsc sgn lo hi) s = .next
      { s with mem := Memory.write (Memory.write s.mem A ((0xF : Nibble) ++ s.hold)) (A + 1) (lo ++ g), hold := hi,
               ncur := s.ncur + 4, prev := smp, scur := s.scur + 1 })

/-- R106, R110, R111, R202: a code word that does not fit in 2C nibbles ends ENCODE with OVERFLOW. Nothing of it is
written; a held nibble is flushed with a zero high half; the results describe the committed prefix. -/
def Obligations.OverflowEndsEncode : Prop :=
  ∀ (s : State) (i : Instr), (∃ v, i = .encShort v) ∨ (∃ sgn m, i = .encMid sgn m) ∨
      (∃ sgn lo hi, i = .encEsc sgn lo hi) →
    s.fsm = .encRun → s.scur ≠ s.srcLen → s.srcAddr.toNat + s.scur.toNat < 2 ^ s.addrW →
    2 * s.dstCap.toNat < s.ncur.toNat + (wordNibbles i).length →
    let A := s.dstAddr.toNat + s.ncur.toNat / 2
    (s.ncur.toNat % 2 = 0 → exec i s = .next
      { s with outLen := BitVec.ofNat 32 ((s.ncur.toNat + 1) / 2), consumed := s.scur, consumedHi := 0,
               last := s.prev, done := true, errCode := .overflow, fsm := .idle }) ∧
    (s.ncur.toNat % 2 = 1 → A < 2 ^ s.addrW → exec i s = .next
      { s with mem := Memory.write s.mem A ((0 : Nibble) ++ s.hold),
               outLen := BitVec.ofNat 32 ((s.ncur.toNat + 1) / 2), consumed := s.scur, consumedHi := 0,
               last := s.prev, done := true, errCode := .overflow, fsm := .idle })

/-- R101, R110, R111: when every sample is encoded the next engine step ends ENCODE with NONE, after the flush. The
three forms of an engine step are log entries 3 and 4. -/
def Obligations.EncodeEndsWithNone : Prop :=
  ∀ s u : State, engineTurn s u → u.fsm = .encRun → u.scur = u.srcLen →
    let A := u.dstAddr.toNat + u.ncur.toNat / 2
    (u.ncur.toNat % 2 = 0 → step s = .next
      { u with outLen := BitVec.ofNat 32 ((u.ncur.toNat + 1) / 2), consumed := u.scur, consumedHi := 0,
               last := u.prev, done := true, errCode := .none, fsm := .idle }) ∧
    (u.ncur.toNat % 2 = 1 → A < 2 ^ u.addrW → step s = .next
      { u with mem := Memory.write u.mem A ((0 : Nibble) ++ u.hold),
               outLen := BitVec.ofNat 32 ((u.ncur.toNat + 1) / 2), consumed := u.scur, consumedHi := 0,
               last := u.prev, done := true, errCode := .none, fsm := .idle })

/-- The frame of the encoder's code words (R64, R105, R110, R111): parameters, operands and the host's side are
unchanged. A step that goes on changes no result register and stores only the bytes its nibbles complete, which start
at the byte of the cursor. A step that ends the command leaves `s.prev`, the cursors and the held nibble, and stores
at most the byte of the held nibble. -/
def Obligations.EncoderFrame : Prop :=
  ∀ (i : Instr) (s t : State),
    (∃ v, i = .encShort v) ∨ (∃ sgn m, i = .encMid sgn m) ∨ (∃ sgn lo hi, i = .encEsc sgn lo hi) →
    exec i s = .next t →
    t.addrW = s.addrW ∧ t.regBase = s.regBase ∧ t.srcAddr = s.srcAddr ∧ t.srcLen = s.srcLen ∧
    t.dstAddr = s.dstAddr ∧ t.dstCap = s.dstCap ∧ t.script = s.script ∧ t.rdata = s.rdata ∧
    t.launch = s.launch ∧ t.draws = s.draws ∧
    ((t.fsm = .encRun ∧ t.outLen = s.outLen ∧ t.consumed = s.consumed ∧ t.consumedHi = s.consumedHi ∧
        t.last = s.last ∧ t.done = s.done ∧ t.errCode = s.errCode ∧
        ∀ a, a < packAddr s ∨ s.dstAddr.toNat + (s.ncur.toNat + (wordNibbles i).length) / 2 ≤ a →
          Memory.read t.mem a = Memory.read s.mem a) ∨
      (t.fsm = .idle ∧ t.prev = s.prev ∧ t.ncur = s.ncur ∧ t.scur = s.scur ∧ t.hold = s.hold ∧
        ∀ a, a ≠ packAddr s ∨ s.ncur.toNat % 2 = 0 → Memory.read t.mem a = Memory.read s.mem a))

/-! ## Where a code word stops (R44, R71, R209) -/

/-- R71, R209: an access of the memory port that has no byte to go to leaves the CORE stuck, as a fault. Clause by
clause: the read of the sample; the reads of the first, the second, and the third and fourth nibbles of a code word, where
the decoder inspects them; the write of the sample of a whole code word in range; the write of any packed byte that a
nibble of an emission completes; the flush's write, at the end of the input and on OVERFLOW. No state that meets the
invariant is such a state (`EngineNeverStops`). Log entry 11. -/
def Obligations.StuckAccess : Prop :=
  (∀ s u : State, engineTurn s u →
    (u.fsm = .encRun → u.scur ≠ u.srcLen → 2 ^ u.addrW ≤ u.srcAddr.toNat + u.scur.toNat →
      step s = .fault .memoryStuck) ∧
    (u.fsm = .decRun → u.scur ≠ u.dstCap → u.ncur.toNat < 2 * u.srcLen.toNat →
      let k := u.ncur.toNat
      let n0 := memNibble u.mem u.srcAddr.toNat k
      let n1 := memNibble u.mem u.srcAddr.toNat (k + 1)
      (2 ^ u.addrW ≤ u.srcAddr.toNat + k / 2 → step s = .fault .memoryStuck) ∧
      (0xC < n0.toNat → k + 1 < 2 * u.srcLen.toNat → 2 ^ u.addrW ≤ u.srcAddr.toNat + (k + 1) / 2 →
        step s = .fault .memoryStuck) ∧
      (n0 = 0xF → n1 = 0xD ∨ n1 = 0xE → k + 3 < 2 * u.srcLen.toNat →
        2 ^ u.addrW ≤ u.srcAddr.toNat + (k + 2) / 2 ∨ 2 ^ u.addrW ≤ u.srcAddr.toNat + (k + 3) / 2 →
        step s = .fault .memoryStuck)) ∧
    (u.fsm = .encRun → u.scur = u.srcLen → u.ncur.toNat % 2 = 1 →
      2 ^ u.addrW ≤ u.dstAddr.toNat + u.ncur.toNat / 2 → step s = .fault .memoryStuck)) ∧
  ∀ s : State,
    (∀ i d, s.fsm = .decRun → s.scur ≠ s.dstCap → s.ncur.toNat + inspectedNibbles i ≤ 2 * s.srcLen.toNat →
      wordDelta i = some d → 0 ≤ (s.prev.toNat : Int) - d → (s.prev.toNat : Int) - d ≤ 255 →
      2 ^ s.addrW ≤ s.dstAddr.toNat + s.scur.toNat → exec i s = .fault .memoryStuck) ∧
    (∀ i, (∃ v, i = .encShort v) ∨ (∃ sgn m, i = .encMid sgn m) ∨ (∃ sgn lo hi, i = .encEsc sgn lo hi) →
      s.fsm = .encRun → s.scur ≠ s.srcLen → s.srcAddr.toNat + s.scur.toNat < 2 ^ s.addrW →
      (s.ncur.toNat + (wordNibbles i).length ≤ 2 * s.dstCap.toNat →
        ∀ j < (wordNibbles i).length, (s.ncur.toNat + j) % 2 = 1 →
          2 ^ s.addrW ≤ s.dstAddr.toNat + (s.ncur.toNat + j) / 2 → exec i s = .fault .memoryStuck) ∧
      (2 * s.dstCap.toNat < s.ncur.toNat + (wordNibbles i).length → s.ncur.toNat % 2 = 1 →
        2 ^ s.addrW ≤ s.dstAddr.toNat + s.ncur.toNat / 2 → exec i s = .fault .memoryStuck))

/-- R44: the engine runs a code word of the decoder in DEC_RUN only, and one of the encoder in ENC_RUN only; `exec`
elsewhere is refused, and no step is refused so, from any state. The refusal's name is the model's: log entry 14. -/
def Obligations.CodeWordNeedsItsCommand : Prop :=
  (∀ (i : Instr) (s : State),
    (0 < inspectedNibbles i → s.fsm ≠ .decRun → exec i s = .refused .noCommandRunning) ∧
    ((∃ v, i = .encShort v) ∨ (∃ sgn m, i = .encMid sgn m) ∨ (∃ sgn lo hi, i = .encEsc sgn lo hi) →
      s.fsm ≠ .encRun → exec i s = .refused .noCommandRunning)) ∧
  ∀ s : State, step s ≠ .refused .noCommandRunning

/-! ## STATUS and the register block (R21 to R36) -/

/-- R23, R44, R201: the bits of STATUS and the numbers of the error codes. -/
def Obligations.StatusBits : Prop :=
  ∀ s : State,
    (statusWord s).getLsbD 0 = decide (s.fsm ≠ .idle) ∧ (statusWord s).getLsbD 1 = s.done ∧
    (statusWord s).getLsbD 2 = decide (s.errCode ≠ .none) ∧ (statusWord s).getLsbD 3 = false ∧
    (statusWord s).extractLsb' 8 24 = 0 ∧
    (statusWord s).extractLsb' 4 4 =
      (match s.errCode with
        | .none => 0 | .overflow => 1 | .badEscape => 2 | .truncated => 3 | .range => 4 | .badCmd => 5)

/-- R21 to R33: a good read of the register block while IDLE returns what the register column of R21 holds, reserved
offsets 0, and changes nothing of the CORE. A read of STATUS tells the host that the command has ended (R241, log entry
10). Where the value goes is log entry 5. -/
def Obligations.RegisterReadIdle : Prop :=
  ∀ (s : State) (offset : Nat) (rest : List Move), s.script = .regRead offset 32 :: rest → s.fsm = .idle →
    offset % 4 = 0 → offset ≤ 0x3C →
    step s = .next
      { s with
        script := rest
        launch := if offset = 0x04 then none else s.launch
        rdata :=
          if offset = 0x04 then statusWord s
          else if offset = 0x08 then s.srcAddr
          else if offset = 0x0C then s.srcLen
          else if offset = 0x10 then s.dstAddr
          else if offset = 0x14 then s.dstCap
          else if offset = 0x18 then s.outLen
          else if offset = 0x1C then s.consumed
          else if offset = 0x20 then s.last.setWidth 32
          else if offset = 0x24 then s.consumedHi.setWidth 32
          else 0 }

/-- R36: while BUSY a read of OUT_LEN, CONSUMED, LAST or CONSUMED_HI returns a free value, fresh for every read, and a
read of any other offset returns the exact value; neither changes anything of the CORE. Log entries 5, 6, 7. -/
def Obligations.RegisterReadBusy : Prop :=
  ∀ (s : State) (offset : Nat) (rest : List Move), s.script = .regRead offset 32 :: rest → s.fsm ≠ .idle →
    offset % 4 = 0 → offset ≤ 0x3C →
    (offset = 0x18 ∨ offset = 0x1C ∨ offset = 0x20 ∨ offset = 0x24 → step s = .next
      { s with script := rest, rdata := Config.freeWord s.draws, draws := s.draws + 1 }) ∧
    (¬(offset = 0x18 ∨ offset = 0x1C ∨ offset = 0x20 ∨ offset = 0x24) → step s = .next
      { s with
        script := rest
        rdata :=
          if offset = 0x04 then statusWord s
          else if offset = 0x08 then s.srcAddr
          else if offset = 0x0C then s.srcLen
          else if offset = 0x10 then s.dstAddr
          else if offset = 0x14 then s.dstCap
          else 0 })

/-- R24 to R27, R34: while IDLE a write to an operand register stores the value, an address truncated to ADDR_W bits;
R23, R28 to R31, R33: a write to a read-only register or a reserved offset is ignored. -/
def Obligations.RegisterWriteIdle : Prop :=
  ∀ (s : State) (offset : Nat) (v : Word) (rest : List Move), s.script = .regWrite offset 32 v :: rest →
    s.fsm = .idle → offset % 4 = 0 → 0 < offset → offset ≤ 0x3C →
    step s = .next
      { s with
        script := rest
        srcAddr := if offset = 0x08 then BitVec.ofNat 32 (v.toNat % 2 ^ s.addrW) else s.srcAddr
        srcLen := if offset = 0x0C then v else s.srcLen
        dstAddr := if offset = 0x10 then BitVec.ofNat 32 (v.toNat % 2 ^ s.addrW) else s.dstAddr
        dstCap := if offset = 0x14 then v else s.dstCap }

/-- R35: "While `s.fsm != IDLE` (BUSY = 1), every host write to the register block is ignored, CMD included." -/
def Obligations.RegisterWriteBusy : Prop :=
  ∀ (s : State) (offset : Nat) (v : Word) (rest : List Move), s.script = .regWrite offset 32 v :: rest →
    s.fsm ≠ .idle → offset % 4 = 0 → offset ≤ 0x3C → step s = .next { s with script := rest }

/-- R32: a register access that is not 32-bit, not aligned or not inside [0x00, 0x3C] is refused. -/
def Obligations.BadAccessRefused : Prop :=
  ∀ (s : State) (offset bits : Nat) (v : Word) (rest : List Move),
    s.script = .regWrite offset bits v :: rest ∨ s.script = .regRead offset bits :: rest →
    bits ≠ 32 ∨ offset % 4 ≠ 0 ∨ 0x3C < offset → step s = .refused .badRegisterAccess

/-- R92, R180: POLL while BUSY waits as the engine steps; with BUSY = 0 it yields STATUS. Log entry 4. -/
def Obligations.PollWaits : Prop :=
  ∀ (s : State) (rest : List Move), s.script = .poll :: rest →
    (s.fsm ≠ .idle → step s = engineStep s) ∧
    (s.fsm = .idle → step s = .next { s with script := rest, rdata := statusWord s, launch := none })

/-! ## Memory (R60, R75, R180, R241) -/

/-- R60, R180: a byte the host writes outside the register window and the frozen buffers is stored, and the next host
read of it returns it while a read of another byte (outside the window and a running command's output buffer) returns
what it held. -/
def Obligations.HostMemory : Prop :=
  ∀ (s : State) (a x : Nat) (v : Byte) (rest : List Move), s.script = .memWrite a v :: .memRead x :: rest →
    a < 2 ^ s.addrW → x < 2 ^ s.addrW → inWindow s a = false → inWindow s x = false → frozen s a = false →
    (s.fsm = .idle ∨ inOutput s x = false) →
    ∃ t, step s = .next t ∧ t = { s with mem := t.mem, script := .memRead x :: rest } ∧
      step t = .next
        { t with script := rest, rdata := (if x = a then v else Memory.read s.mem x).setWidth 32 }

/-- R241: a host write to a buffer of a command that has not been seen to end is refused. Log entry 10. -/
def Obligations.FrozenWriteRefused : Prop :=
  ∀ (s : State) (a : Nat) (v : Byte) (rest : List Move) (l : Launch), s.script = .memWrite a v :: rest →
    s.launch = some l → (l.src ≤ a ∧ a < l.src + l.len) ∨ (l.dst ≤ a ∧ a < l.dst + l.cap) →
    (a < s.regBase ∨ s.regBase + 0x40 ≤ a) → step s = .refused .frozenBuffer

/-- R32, R60: a host byte access to the register window is refused (log entry 12), and one that is in neither the window
nor a frozen buffer and not below 2^ADDR_W faults, because memory has no such byte (log entry 11). -/
def Obligations.BadMemoryAccess : Prop :=
  ∀ (s : State) (a : Nat) (v : Byte) (rest : List Move),
    s.script = .memRead a :: rest ∨ s.script = .memWrite a v :: rest →
    (s.regBase ≤ a → a < s.regBase + 0x40 → step s = .refused .badRegisterAccess) ∧
    (a < s.regBase ∨ s.regBase + 0x40 ≤ a → frozen s a = false → 2 ^ s.addrW ≤ a →
      step s = .fault .noSuchAddress)

/-- R75: a host read of an output byte while BUSY returns its value before the command or its value after it, and
changes nothing of the CORE. Log entry 8. -/
def Obligations.OutputReadOldOrFinal : Prop :=
  ∀ (s : State) (a : Nat) (rest : List Move) (l : Launch), s.script = .memRead a :: rest → s.fsm ≠ .idle →
    s.launch = some l → a < 2 ^ s.addrW → (a < s.regBase ∨ s.regBase + 0x40 ≤ a) →
    s.dstAddr.toNat ≤ a → a < s.dstAddr.toNat + s.dstCap.toNat →
    ∃ b : Byte, (b = Memory.read l.before a ∨ b = Memory.read (atEnd { s with script := rest }).mem a) ∧
      step s = .next { s with script := rest, rdata := b.setWidth 32, draws := s.draws + 1 }

/-! ## Reset (R48, R230, R231) -/

/-- R48: after reset the engine is in IDLE with its state 0 and every offset of the register block reads 0, for every
value of the parameters. -/
def Obligations.ResetValues : Prop :=
  ∀ (w r : Nat), let s := State.resetWith w r
    s.addrW = w ∧ s.regBase = r ∧ s.fsm = .idle ∧ s.prev = 0 ∧ s.ncur = 0 ∧ s.scur = 0 ∧ s.hold = 0 ∧
    s.done = false ∧ s.errCode = .none ∧ ∀ offset, readRegister s offset = 0

/-- R230, R231: reset sets the CORE as R48 says, whatever runs. While IDLE memory is unchanged; while BUSY each byte of
the output buffer is the old or the would-be one, and every other byte is unchanged. Log entries 9, 25. -/
def Obligations.ResetFromAnywhere : Prop :=
  ∀ (s : State) (rest : List Move), s.script = .reset :: rest →
    ∃ m n, step s = .next
        { State.resetWith s.addrW s.regBase with mem := m, script := rest, rdata := s.rdata, draws := n } ∧
      (s.fsm = .idle → m = s.mem ∧ n = s.draws) ∧
      (∀ l, s.fsm ≠ .idle → s.launch = some l → ∀ a,
        (s.dstAddr.toNat ≤ a ∧ a < s.dstAddr.toNat + s.dstCap.toNat →
          Memory.read m a = Memory.read l.before a ∨
          Memory.read m a = Memory.read (atEnd { s with script := rest }).mem a) ∧
        (¬(s.dstAddr.toNat ≤ a ∧ a < s.dstAddr.toNat + s.dstCap.toNat) →
          Memory.read m a = Memory.read s.mem a))

/-! ## Invariants and whole-machine rules -/

/-- The state after reset meets the invariant, for every legal ADDR_W (R10) and every REG_BASE; so does `State.reset`,
whose parameters are log entry 2. -/
def Obligations.ResetInv : Prop :=
  (∀ w r, 1 ≤ w → w ≤ 32 → Inv (State.resetWith w r)) ∧ Inv State.reset

/-- Every step keeps the invariant: the canonical memory of 2^ADDR_W bytes (R60), the stored bits of the address
registers (R24, R26), the STATUS invariants (R23, R37), and for a running command the buffer preconditions (R69), the
frozen buffers (R241) and the bounds of the cursors (R41, R42, R45, R151). -/
def Obligations.StepKeepsInv : Prop :=
  ∀ s t : State, Inv s → step s = .next t → Inv t

/-- R64, R69, R71: with the invariant an engine step never stops, so every access of a running command lies in
memory. -/
def Obligations.EngineNeverStops : Prop :=
  ∀ s : State, Inv s → ∃ t, engineStep s = .next t

/-- R64, R241: an engine step writes only inside the output buffer, so it leaves the input buffer, and it changes no
operand register. -/
def Obligations.EngineWritesOnlyOutput : Prop :=
  ∀ s t : State, Inv s → engineStep s = .next t →
    t.srcAddr = s.srcAddr ∧ t.srcLen = s.srcLen ∧ t.dstAddr = s.dstAddr ∧ t.dstCap = s.dstCap ∧
    (∀ a, a < s.dstAddr.toNat ∨ s.dstAddr.toNat + s.dstCap.toNat ≤ a →
      Memory.read t.mem a = Memory.read s.mem a) ∧
    (s.fsm ≠ .idle → ∀ i < s.srcLen.toNat,
      Memory.read t.mem (s.srcAddr.toNat + i) = Memory.read s.mem (s.srcAddr.toNat + i))

/-- R112, R151, R247: a running command ends, with DONE = 1, within N + 1 (ENCODE) or M + 1 (DECODE) engine steps,
less one for every sample already done. -/
def Obligations.CommandEnds : Prop :=
  ∀ s : State, Inv s → s.fsm ≠ .idle → (atEnd s).fsm = .idle ∧ (atEnd s).done = true

/-- R211, R218: while IDLE only the start of a command, a rejected command or reset change STATUS, the result registers
or the engine's state; any other step that the model takes leaves them. -/
def Obligations.IdlePersists : Prop :=
  ∀ s t : State, s.fsm = .idle → step s = .next t →
    (∀ rest, s.script ≠ .reset :: rest) →
    (∀ v rest, s.script = .regWrite 0 32 v :: rest → decodeCommand v = .nop) →
    t.fsm = .idle ∧ t.done = s.done ∧ t.errCode = s.errCode ∧ t.outLen = s.outLen ∧ t.consumed = s.consumed ∧
    t.consumedHi = s.consumedHi ∧ t.last = s.last ∧ t.prev = s.prev ∧ t.ncur = s.ncur ∧ t.scur = s.scur ∧
    t.hold = s.hold

/-- R232, "the codec holds no persistent state between calls": two machines with the same parameters, operands and
memory, whatever earlier commands left in all other state, end a started command with the same memory and results. -/
def Obligations.NoCarryOver : Prop :=
  ∀ (i : Instr) (s s' t t' : State), i = .startEncode ∨ i = .startDecode → s.fsm = .idle → s'.fsm = .idle →
    s.addrW = s'.addrW → s.regBase = s'.regBase → s.srcAddr = s'.srcAddr → s.srcLen = s'.srcLen →
    s.dstAddr = s'.dstAddr → s.dstCap = s'.dstCap → s.mem = s'.mem →
    exec i s = .next t → exec i s' = .next t' →
    (atEnd t).mem = (atEnd t').mem ∧ (atEnd t).done = (atEnd t').done ∧ (atEnd t).errCode = (atEnd t').errCode ∧
    (atEnd t).fsm = (atEnd t').fsm ∧ (atEnd t).prev = (atEnd t').prev ∧ (atEnd t).ncur = (atEnd t').ncur ∧
    (atEnd t).scur = (atEnd t').scur ∧
    ((atEnd t).fsm = .idle → (atEnd t).outLen = (atEnd t').outLen ∧ (atEnd t).consumed = (atEnd t').consumed ∧
      (atEnd t).consumedHi = (atEnd t').consumedHi ∧ (atEnd t).last = (atEnd t').last)

/-! ## The laws of the codec -/

/-- R112: with T_k the nibbles of the first k code words, an ENCODE of N samples into C bytes commits the first k
samples, k being N if T_N <= 2C and else the largest k with T_k <= 2C; it ends with NONE if k = N and else with
OVERFLOW; CONSUMED = k, OUT_LEN = ceil(T_k / 2), and the output holds the packed stream of the first k code words,
with a 0 pad when T_k is odd. Bytes past OUT_LEN are not written (R111). -/
def Obligations.EncodeResult : Prop :=
  ∀ (s : State) (k : Nat), Inv s → s.fsm = .encRun → fresh s →
    let xs := bytesAt s.mem s.srcAddr.toNat s.srcLen.toNat
    k ≤ s.srcLen.toNat → prefixNibbles xs k ≤ 2 * s.dstCap.toNat →
    k = s.srcLen.toNat ∨ 2 * s.dstCap.toNat < prefixNibbles xs (k + 1) →
    let t := atEnd s
    t.fsm = .idle ∧ t.done = true ∧ t.errCode = (if k = s.srcLen.toNat then .none else .overflow) ∧
    t.consumed.toNat = k ∧ t.consumedHi = 0 ∧ t.outLen.toNat = (prefixNibbles xs k + 1) / 2 ∧
    t.last = (if k = 0 then 0 else Memory.read s.mem (s.srcAddr.toNat + (k - 1))) ∧
    holdsStream t.mem s.dstAddr.toNat (streamOf 0 (xs.take k)) ∧
    ∀ a, a < s.dstAddr.toNat ∨ s.dstAddr.toNat + t.outLen.toNat ≤ a → Memory.read t.mem a = Memory.read s.mem a

/-- R113: each code word has at most 4 nibbles, so T <= 4N and OUT_LEN <= 2N, and a capacity C >= 2N never
overflows. -/
def Obligations.ExpansionBound : Prop :=
  (∀ p smp : Byte, (sampleWord p smp).length ≤ 4) ∧
  ∀ s : State, Inv s → s.fsm = .encRun → fresh s →
    prefixNibbles (bytesAt s.mem s.srcAddr.toNat s.srcLen.toNat) s.srcLen.toNat ≤ 4 * s.srcLen.toNat ∧
    (atEnd s).outLen.toNat ≤ 2 * s.srcLen.toNat ∧
    (2 * s.srcLen.toNat ≤ s.dstCap.toNat → (atEnd s).errCode = .none ∧ (atEnd s).consumed = s.srcLen)

/-- R154: with M = 0, or with P = 0, the first step of DECODE ends it with NONE, OUT_LEN = 0, CONSUMED = 0 and
LAST = 0, and memory is as it was, wherever the buffers lie: no access is needed. Only the ways an engine step comes
to be next (`engineTurn`) are the model's: log entries 3, 4. -/
def Obligations.EmptyDecode : Prop :=
  ∀ s u : State, engineTurn s u → u.fsm = .decRun → fresh u → u.dstCap = 0 ∨ u.srcLen = 0 →
    ∃ t, step s = .next t ∧ t.fsm = .idle ∧ t.done = true ∧ t.errCode = .none ∧ t.outLen = 0 ∧ t.consumed = 0 ∧
      t.consumedHi = 0 ∧ t.last = 0 ∧ t.mem = u.mem

/-- R153, the round-trip law: let an ENCODE of N samples end with NONE, OUT_LEN = B and T nibbles emitted. A DECODE of
the B packed bytes with M = N, on a machine that holds them in its input buffer, ends with NONE, OUT_LEN = N and
CONSUMED = T, with output bytes equal to the samples and LAST equal to the LAST of the encode. -/
def Obligations.RoundTrip : Prop :=
  ∀ s u : State, Inv s → s.fsm = .encRun → fresh s → (atEnd s).errCode = .none →
    Inv u → u.fsm = .decRun → fresh u → u.srcLen = (atEnd s).outLen → u.dstCap = s.srcLen →
    (∀ i < (atEnd s).outLen.toNat,
      Memory.read u.mem (u.srcAddr.toNat + i) = Memory.read (atEnd s).mem (s.dstAddr.toNat + i)) →
    let v := atEnd u
    v.fsm = .idle ∧ v.done = true ∧ v.errCode = .none ∧ v.outLen = s.srcLen ∧
    2 ^ 32 * v.consumedHi.toNat + v.consumed.toNat =
      (streamOf 0 (bytesAt s.mem s.srcAddr.toNat s.srcLen.toNat)).length ∧
    v.last = (atEnd s).last ∧
    ∀ i < s.srcLen.toNat, Memory.read v.mem (u.dstAddr.toNat + i) = Memory.read s.mem (s.srcAddr.toNat + i)

/-- R155 for a stream the encoder made: a DECODE of it with M at most the number of its samples ends with NONE after
exactly M samples, with CONSUMED the total length of the first M code words. -/
def Obligations.StoppingShort : Prop :=
  ∀ s u : State, Inv s → s.fsm = .encRun → fresh s → (atEnd s).errCode = .none →
    Inv u → u.fsm = .decRun → fresh u → u.srcLen = (atEnd s).outLen → u.dstCap.toNat ≤ s.srcLen.toNat →
    (∀ i < (atEnd s).outLen.toNat,
      Memory.read u.mem (u.srcAddr.toNat + i) = Memory.read (atEnd s).mem (s.dstAddr.toNat + i)) →
    let v := atEnd u
    v.fsm = .idle ∧ v.done = true ∧ v.errCode = .none ∧ v.outLen = u.dstCap ∧
    2 ^ 32 * v.consumedHi.toNat + v.consumed.toNat =
      prefixNibbles (bytesAt s.mem s.srcAddr.toNat s.srcLen.toNat) u.dstCap.toNat ∧
    ∀ i < u.dstCap.toNat, Memory.read v.mem (u.dstAddr.toNat + i) = Memory.read s.mem (s.srcAddr.toNat + i)

/-- R156: a stream of T nibbles, T odd, decoded with P = (T + 1) / 2 and M > N. The pad is decoded as SHORT -6: with
LAST <= 249 one extra sample LAST + 6 is written, OUT_LEN = N + 1, and the command ends with NONE; with LAST >= 250 it
ends with RANGE and OUT_LEN = N. -/
def Obligations.PadNibbleDecoded : Prop :=
  ∀ s u : State, Inv s → s.fsm = .encRun → fresh s → (atEnd s).errCode = .none →
    Inv u → u.fsm = .decRun → fresh u → u.srcLen = (atEnd s).outLen → s.srcLen.toNat < u.dstCap.toNat →
    (∀ i < (atEnd s).outLen.toNat,
      Memory.read u.mem (u.srcAddr.toNat + i) = Memory.read (atEnd s).mem (s.dstAddr.toNat + i)) →
    let T := (streamOf 0 (bytesAt s.mem s.srcAddr.toNat s.srcLen.toNat)).length
    let L := (atEnd s).last
    let v := atEnd u
    T % 2 = 1 →
    v.fsm = .idle ∧ v.done = true ∧
    (L.toNat ≤ 249 → v.errCode = .none ∧ v.outLen.toNat = s.srcLen.toNat + 1 ∧
      2 ^ 32 * v.consumedHi.toNat + v.consumed.toNat = T + 1 ∧
      Memory.read v.mem (u.dstAddr.toNat + s.srcLen.toNat) = L + 6 ∧ v.last = L + 6) ∧
    (250 ≤ L.toNat → v.errCode = .range ∧ v.outLen = s.srcLen ∧
      2 ^ 32 * v.consumedHi.toNat + v.consumed.toNat = T ∧ v.last = L) ∧
    ∀ i < s.srcLen.toNat, Memory.read v.mem (u.dstAddr.toNat + i) = Memory.read s.mem (s.srcAddr.toNat + i)

/-- R131, R147, R148, R155 for every stream: a stream that starts with the nibbles of the code words `ws`, whose samples
are all in range, decoded with M the number of those words, whatever follows them, ends with NONE after exactly M
samples; they are the words' samples, and CONSUMED is the total length of the words. -/
def Obligations.DecodeResult : Prop :=
  ∀ (u : State) (ws : List Instr) (xs : List Byte), Inv u → u.fsm = .decRun → fresh u →
    (∀ i ∈ ws, wellFormed i = true) → samplesOf 0 ws = some xs →
    let ns := ws.flatMap wordNibbles
    ns.length ≤ 2 * u.srcLen.toNat →
    (∀ k < ns.length, memNibble u.mem u.srcAddr.toNat k = nibbleOr0 ns k) →
    u.dstCap.toNat = ws.length →
    let v := atEnd u
    v.fsm = .idle ∧ v.done = true ∧ v.errCode = .none ∧ v.outLen = u.dstCap ∧
    2 ^ 32 * v.consumedHi.toNat + v.consumed.toNat = ns.length ∧ v.last = xs.getLastD 0 ∧
    bytesAt v.mem u.dstAddr.toNat u.dstCap.toNat = xs
end

