-- ==== Sys2Proof/Laws/Memory.lean ====
section
/-! SUPPORT. The laws of memory: a read after a write, and the canonical form. -/

namespace Sys2Proof.Machine

theorem Memory.read_erase_same (m : Memory) (a : Nat) : Memory.read (Memory.erase m a) a = Config.unlistedByte := by
  induction m with
  | nil => rfl
  | cons c m ih =>
    obtain ⟨b, v⟩ := c
    by_cases h : a = b <;> simp [Memory.erase, Memory.read, h] <;> simpa [h] using ih

theorem Memory.read_erase_other {m : Memory} {a x : Nat} (h : x ≠ a) :
    Memory.read (Memory.erase m a) x = Memory.read m x := by
  induction m with
  | nil => rfl
  | cons c m ih =>
    obtain ⟨b, v⟩ := c
    by_cases hb : a = b
    · subst hb; simp [Memory.erase, Memory.read, h, ih]
    · simp [Memory.erase, Memory.read, hb, ih]

theorem Memory.not_mem_erase (m : Memory) (a : Nat) : ∀ c ∈ Memory.erase m a, c.1 ≠ a := by
  induction m with
  | nil => simp [Memory.erase]
  | cons c m ih =>
    obtain ⟨b, v⟩ := c
    by_cases hb : a = b
    · simpa [Memory.erase, hb] using ih
    · simp only [Memory.erase, hb, if_false, List.mem_cons]
      rintro c (rfl | hc)
      · exact fun h => hb h.symm
      · exact ih c hc

theorem Memory.read_insert_other {m : Memory} {a x : Nat} {v : Byte} (h : x ≠ a) :
    Memory.read (Memory.insert m a v) x = Memory.read m x := by
  induction m with
  | nil => simp [Memory.insert, Memory.read, h]
  | cons c m ih =>
    obtain ⟨b, w⟩ := c
    by_cases hb : a < b <;> simp [Memory.insert, Memory.read, hb, h, ih]

theorem Memory.read_insert_same {m : Memory} {a : Nat} {v : Byte} (h : ∀ c ∈ m, c.1 ≠ a) :
    Memory.read (Memory.insert m a v) a = v := by
  induction m with
  | nil => simp [Memory.insert, Memory.read]
  | cons c m ih =>
    obtain ⟨b, w⟩ := c
    have hb : a ≠ b := fun e => h (b, w) (by simp) e.symm
    by_cases hlt : a < b
    · simp [Memory.insert, Memory.read, hlt]
    · simp [Memory.insert, Memory.read, hlt, hb, ih fun c hc => h c (by simp [hc])]

/-- A later read of the byte written returns it (R60). -/
theorem Memory.read_write_same (m : Memory) (a : Nat) (v : Byte) : Memory.read (Memory.write m a v) a = v := by
  unfold Memory.write
  split
  · next h => rw [Memory.read_erase_same, h]
  · exact Memory.read_insert_same (Memory.not_mem_erase m a)

/-- A write leaves every other byte alone (R60). -/
theorem Memory.read_write_other {m : Memory} {a x : Nat} {v : Byte} (h : x ≠ a) :
    Memory.read (Memory.write m a v) x = Memory.read m x := by
  unfold Memory.write
  split
  · exact Memory.read_erase_other h
  · rw [Memory.read_insert_other h, Memory.read_erase_other h]

theorem Memory.read_write (m : Memory) (a x : Nat) (v : Byte) :
    Memory.read (Memory.write m a v) x = if x = a then v else Memory.read m x := by
  split
  · next h => rw [h, Memory.read_write_same]
  · next h => exact Memory.read_write_other h

theorem Memory.mem_of_mem_erase {m : Memory} {a : Nat} {c : Host.Cell} (h : c ∈ Memory.erase m a) : c ∈ m := by
  induction m with
  | nil => simp [Memory.erase] at h
  | cons d m ih =>
    obtain ⟨b, v⟩ := d
    by_cases hb : a = b
    · simp only [Memory.erase, hb, if_true] at h; exact List.mem_cons_of_mem _ (ih (by simpa [hb] using h))
    · simp only [Memory.erase, hb, if_false, List.mem_cons] at h
      rcases h with rfl | h
      · simp
      · exact List.mem_cons_of_mem _ (ih h)

theorem Memory.mem_of_mem_insert {m : Memory} {a : Nat} {v : Byte} {c : Host.Cell}
    (h : c ∈ Memory.insert m a v) : c = (a, v) ∨ c ∈ m := by
  induction m with
  | nil => simpa [Memory.insert] using h
  | cons d m ih =>
    obtain ⟨b, w⟩ := d
    by_cases hb : a < b
    · simpa [Memory.insert, hb] using h
    · simp only [Memory.insert, hb, if_false, List.mem_cons] at h
      rcases h with rfl | h
      · simp
      · rcases ih h with h | h
        · exact .inl h
        · exact .inr (List.mem_cons_of_mem _ h)

theorem Memory.mem_of_mem_write {m : Memory} {a : Nat} {v : Byte} {c : Host.Cell}
    (h : c ∈ Memory.write m a v) : c.1 = a ∨ c ∈ m := by
  unfold Memory.write at h
  split at h
  · exact .inr (Memory.mem_of_mem_erase h)
  · rcases Memory.mem_of_mem_insert h with rfl | h
    · exact .inl rfl
    · exact .inr (Memory.mem_of_mem_erase h)

theorem Memory.wf_erase {m : Memory} (a : Nat) (h : Memory.wf m) : Memory.wf (Memory.erase m a) := by
  refine ⟨?_, fun c hc => h.2 c (Memory.mem_of_mem_erase hc)⟩
  have hp := h.1
  clear h
  induction m with
  | nil => simp [Memory.erase]
  | cons d m ih =>
    obtain ⟨b, v⟩ := d
    rw [List.pairwise_cons] at hp
    by_cases hb : a = b
    · simpa [Memory.erase, hb] using ih hp.2
    · simp only [Memory.erase, hb, if_false, List.pairwise_cons]
      exact ⟨fun c hc => hp.1 c (Memory.mem_of_mem_erase hc), ih hp.2⟩

theorem Memory.pairwise_insert {m : Memory} {a : Nat} {v : Byte} (hp : m.Pairwise fun c d => c.1 < d.1)
    (ha : ∀ c ∈ m, c.1 ≠ a) : (Memory.insert m a v).Pairwise fun c d => c.1 < d.1 := by
  induction m with
  | nil => simp [Memory.insert]
  | cons d m ih =>
    obtain ⟨b, w⟩ := d
    have hab : b ≠ a := ha (b, w) (by simp)
    have hp' := List.pairwise_cons.mp hp
    by_cases hb : a < b
    · simp only [Memory.insert, hb, if_true, List.pairwise_cons]
      refine ⟨fun c hc => ?_, hp'⟩
      rcases List.mem_cons.mp hc with rfl | hc
      · exact hb
      · exact lt_trans hb (hp'.1 c hc)
    · simp only [Memory.insert, hb, if_false, List.pairwise_cons]
      refine ⟨fun c hc => ?_, ih hp'.2 fun c hc => ha c (by simp [hc])⟩
      rcases Memory.mem_of_mem_insert hc with rfl | hc
      · show b < a; omega
      · exact hp'.1 c hc

/-- A write keeps the canonical form. -/
theorem Memory.wf_write {m : Memory} (a : Nat) (v : Byte) (h : Memory.wf m) : Memory.wf (Memory.write m a v) := by
  have he := Memory.wf_erase a h
  unfold Memory.write
  split
  · exact he
  · next hv =>
    refine ⟨Memory.pairwise_insert he.1 (Memory.not_mem_erase m a), fun c hc => ?_⟩
    rcases Memory.mem_of_mem_insert hc with rfl | hc
    · exact hv
    · exact he.2 c hc

/-- Overwriting a list of addresses keeps the canonical form. -/
theorem Memory.wf_overwrite (f : Nat → Byte) (l : List Nat) {m : Memory} (h : Memory.wf m) :
    Memory.wf (Memory.overwrite m l f) := by
  induction l generalizing m with
  | nil => exact h
  | cons a l ih => exact ih (Memory.wf_write a (f a) h)

/-- A listed address reads as `f` gives, every other one as before. -/
theorem Memory.read_overwrite (f : Nat → Byte) (l : List Nat) (m : Memory) (x : Nat) :
    Memory.read (Memory.overwrite m l f) x = if x ∈ l then f x else Memory.read m x := by
  induction l generalizing m with
  | nil => simp [Memory.overwrite]
  | cons a l ih =>
    rw [show Memory.overwrite m (a :: l) f = Memory.overwrite (Memory.write m a (f a)) l f from rfl, ih,
      Memory.read_write]
    by_cases hx : x ∈ l
    · simp [hx]
    · by_cases ha : x = a <;> simp [hx, ha]

theorem Memory.mem_of_mem_overwrite {f : Nat → Byte} {l : List Nat} {m : Memory} {c : Host.Cell}
    (h : c ∈ Memory.overwrite m l f) : c.1 ∈ l ∨ c ∈ m := by
  induction l generalizing m with
  | nil => exact .inr h
  | cons a l ih =>
    rcases ih (m := Memory.write m a (f a)) h with h | h
    · exact .inl (List.mem_cons_of_mem _ h)
    · rcases Memory.mem_of_mem_write h with h | h
      · exact .inl (by simp [h])
      · exact .inr h

/-- A byte that no entry lists reads as an unlisted one. -/
theorem Memory.read_of_not_listed {m : Memory} {a : Nat} (h : a ∉ m.map Prod.fst) :
    Memory.read m a = Config.unlistedByte := by
  induction m with
  | nil => rfl
  | cons c m ih =>
    obtain ⟨b, v⟩ := c
    simp only [List.map_cons, List.mem_cons, not_or] at h
    simp [Memory.read, h.1, ih h.2]

end Sys2Proof.Machine
end

