-- ==== Sys2Proof/Laws/State.lean ====
section
/-! SUPPORT. One lemma per field per named update of the state: what the update does to the field. -/

namespace Sys2Proof.Machine

variable (s : State)

/-! ### State.setMem -/

@[simp] theorem State.setMem_addrW (m : Memory) : (s.setMem m).addrW = s.addrW := rfl
@[simp] theorem State.setMem_regBase (m : Memory) : (s.setMem m).regBase = s.regBase := rfl
@[simp] theorem State.setMem_srcAddr (m : Memory) : (s.setMem m).srcAddr = s.srcAddr := rfl
@[simp] theorem State.setMem_srcLen (m : Memory) : (s.setMem m).srcLen = s.srcLen := rfl
@[simp] theorem State.setMem_dstAddr (m : Memory) : (s.setMem m).dstAddr = s.dstAddr := rfl
@[simp] theorem State.setMem_dstCap (m : Memory) : (s.setMem m).dstCap = s.dstCap := rfl
@[simp] theorem State.setMem_outLen (m : Memory) : (s.setMem m).outLen = s.outLen := rfl
@[simp] theorem State.setMem_consumed (m : Memory) : (s.setMem m).consumed = s.consumed := rfl
@[simp] theorem State.setMem_consumedHi (m : Memory) : (s.setMem m).consumedHi = s.consumedHi := rfl
@[simp] theorem State.setMem_last (m : Memory) : (s.setMem m).last = s.last := rfl
@[simp] theorem State.setMem_done (m : Memory) : (s.setMem m).done = s.done := rfl
@[simp] theorem State.setMem_errCode (m : Memory) : (s.setMem m).errCode = s.errCode := rfl
@[simp] theorem State.setMem_fsm (m : Memory) : (s.setMem m).fsm = s.fsm := rfl
@[simp] theorem State.setMem_prev (m : Memory) : (s.setMem m).prev = s.prev := rfl
@[simp] theorem State.setMem_ncur (m : Memory) : (s.setMem m).ncur = s.ncur := rfl
@[simp] theorem State.setMem_scur (m : Memory) : (s.setMem m).scur = s.scur := rfl
@[simp] theorem State.setMem_hold (m : Memory) : (s.setMem m).hold = s.hold := rfl
@[simp] theorem State.setMem_mem (m : Memory) : (s.setMem m).mem = m := rfl
@[simp] theorem State.setMem_script (m : Memory) : (s.setMem m).script = s.script := rfl
@[simp] theorem State.setMem_rdata (m : Memory) : (s.setMem m).rdata = s.rdata := rfl
@[simp] theorem State.setMem_launch (m : Memory) : (s.setMem m).launch = s.launch := rfl
@[simp] theorem State.setMem_draws (m : Memory) : (s.setMem m).draws = s.draws := rfl

/-! ### State.setScript -/

@[simp] theorem State.setScript_addrW (l : List Move) : (s.setScript l).addrW = s.addrW := rfl
@[simp] theorem State.setScript_regBase (l : List Move) : (s.setScript l).regBase = s.regBase := rfl
@[simp] theorem State.setScript_srcAddr (l : List Move) : (s.setScript l).srcAddr = s.srcAddr := rfl
@[simp] theorem State.setScript_srcLen (l : List Move) : (s.setScript l).srcLen = s.srcLen := rfl
@[simp] theorem State.setScript_dstAddr (l : List Move) : (s.setScript l).dstAddr = s.dstAddr := rfl
@[simp] theorem State.setScript_dstCap (l : List Move) : (s.setScript l).dstCap = s.dstCap := rfl
@[simp] theorem State.setScript_outLen (l : List Move) : (s.setScript l).outLen = s.outLen := rfl
@[simp] theorem State.setScript_consumed (l : List Move) : (s.setScript l).consumed = s.consumed := rfl
@[simp] theorem State.setScript_consumedHi (l : List Move) : (s.setScript l).consumedHi = s.consumedHi := rfl
@[simp] theorem State.setScript_last (l : List Move) : (s.setScript l).last = s.last := rfl
@[simp] theorem State.setScript_done (l : List Move) : (s.setScript l).done = s.done := rfl
@[simp] theorem State.setScript_errCode (l : List Move) : (s.setScript l).errCode = s.errCode := rfl
@[simp] theorem State.setScript_fsm (l : List Move) : (s.setScript l).fsm = s.fsm := rfl
@[simp] theorem State.setScript_prev (l : List Move) : (s.setScript l).prev = s.prev := rfl
@[simp] theorem State.setScript_ncur (l : List Move) : (s.setScript l).ncur = s.ncur := rfl
@[simp] theorem State.setScript_scur (l : List Move) : (s.setScript l).scur = s.scur := rfl
@[simp] theorem State.setScript_hold (l : List Move) : (s.setScript l).hold = s.hold := rfl
@[simp] theorem State.setScript_mem (l : List Move) : (s.setScript l).mem = s.mem := rfl
@[simp] theorem State.setScript_script (l : List Move) : (s.setScript l).script = l := rfl
@[simp] theorem State.setScript_rdata (l : List Move) : (s.setScript l).rdata = s.rdata := rfl
@[simp] theorem State.setScript_launch (l : List Move) : (s.setScript l).launch = s.launch := rfl
@[simp] theorem State.setScript_draws (l : List Move) : (s.setScript l).draws = s.draws := rfl

/-! ### State.setRdata -/

@[simp] theorem State.setRdata_addrW (v : Word) : (s.setRdata v).addrW = s.addrW := rfl
@[simp] theorem State.setRdata_regBase (v : Word) : (s.setRdata v).regBase = s.regBase := rfl
@[simp] theorem State.setRdata_srcAddr (v : Word) : (s.setRdata v).srcAddr = s.srcAddr := rfl
@[simp] theorem State.setRdata_srcLen (v : Word) : (s.setRdata v).srcLen = s.srcLen := rfl
@[simp] theorem State.setRdata_dstAddr (v : Word) : (s.setRdata v).dstAddr = s.dstAddr := rfl
@[simp] theorem State.setRdata_dstCap (v : Word) : (s.setRdata v).dstCap = s.dstCap := rfl
@[simp] theorem State.setRdata_outLen (v : Word) : (s.setRdata v).outLen = s.outLen := rfl
@[simp] theorem State.setRdata_consumed (v : Word) : (s.setRdata v).consumed = s.consumed := rfl
@[simp] theorem State.setRdata_consumedHi (v : Word) : (s.setRdata v).consumedHi = s.consumedHi := rfl
@[simp] theorem State.setRdata_last (v : Word) : (s.setRdata v).last = s.last := rfl
@[simp] theorem State.setRdata_done (v : Word) : (s.setRdata v).done = s.done := rfl
@[simp] theorem State.setRdata_errCode (v : Word) : (s.setRdata v).errCode = s.errCode := rfl
@[simp] theorem State.setRdata_fsm (v : Word) : (s.setRdata v).fsm = s.fsm := rfl
@[simp] theorem State.setRdata_prev (v : Word) : (s.setRdata v).prev = s.prev := rfl
@[simp] theorem State.setRdata_ncur (v : Word) : (s.setRdata v).ncur = s.ncur := rfl
@[simp] theorem State.setRdata_scur (v : Word) : (s.setRdata v).scur = s.scur := rfl
@[simp] theorem State.setRdata_hold (v : Word) : (s.setRdata v).hold = s.hold := rfl
@[simp] theorem State.setRdata_mem (v : Word) : (s.setRdata v).mem = s.mem := rfl
@[simp] theorem State.setRdata_script (v : Word) : (s.setRdata v).script = s.script := rfl
@[simp] theorem State.setRdata_rdata (v : Word) : (s.setRdata v).rdata = v := rfl
@[simp] theorem State.setRdata_launch (v : Word) : (s.setRdata v).launch = s.launch := rfl
@[simp] theorem State.setRdata_draws (v : Word) : (s.setRdata v).draws = s.draws := rfl

/-! ### State.drew -/

@[simp] theorem State.drew_addrW (n : Nat) : (s.drew n).addrW = s.addrW := rfl
@[simp] theorem State.drew_regBase (n : Nat) : (s.drew n).regBase = s.regBase := rfl
@[simp] theorem State.drew_srcAddr (n : Nat) : (s.drew n).srcAddr = s.srcAddr := rfl
@[simp] theorem State.drew_srcLen (n : Nat) : (s.drew n).srcLen = s.srcLen := rfl
@[simp] theorem State.drew_dstAddr (n : Nat) : (s.drew n).dstAddr = s.dstAddr := rfl
@[simp] theorem State.drew_dstCap (n : Nat) : (s.drew n).dstCap = s.dstCap := rfl
@[simp] theorem State.drew_outLen (n : Nat) : (s.drew n).outLen = s.outLen := rfl
@[simp] theorem State.drew_consumed (n : Nat) : (s.drew n).consumed = s.consumed := rfl
@[simp] theorem State.drew_consumedHi (n : Nat) : (s.drew n).consumedHi = s.consumedHi := rfl
@[simp] theorem State.drew_last (n : Nat) : (s.drew n).last = s.last := rfl
@[simp] theorem State.drew_done (n : Nat) : (s.drew n).done = s.done := rfl
@[simp] theorem State.drew_errCode (n : Nat) : (s.drew n).errCode = s.errCode := rfl
@[simp] theorem State.drew_fsm (n : Nat) : (s.drew n).fsm = s.fsm := rfl
@[simp] theorem State.drew_prev (n : Nat) : (s.drew n).prev = s.prev := rfl
@[simp] theorem State.drew_ncur (n : Nat) : (s.drew n).ncur = s.ncur := rfl
@[simp] theorem State.drew_scur (n : Nat) : (s.drew n).scur = s.scur := rfl
@[simp] theorem State.drew_hold (n : Nat) : (s.drew n).hold = s.hold := rfl
@[simp] theorem State.drew_mem (n : Nat) : (s.drew n).mem = s.mem := rfl
@[simp] theorem State.drew_script (n : Nat) : (s.drew n).script = s.script := rfl
@[simp] theorem State.drew_rdata (n : Nat) : (s.drew n).rdata = s.rdata := rfl
@[simp] theorem State.drew_launch (n : Nat) : (s.drew n).launch = s.launch := rfl
@[simp] theorem State.drew_draws (n : Nat) : (s.drew n).draws = s.draws + n := rfl

/-! ### State.sawEnd -/

@[simp] theorem State.sawEnd_addrW : (s.sawEnd).addrW = s.addrW := rfl
@[simp] theorem State.sawEnd_regBase : (s.sawEnd).regBase = s.regBase := rfl
@[simp] theorem State.sawEnd_srcAddr : (s.sawEnd).srcAddr = s.srcAddr := rfl
@[simp] theorem State.sawEnd_srcLen : (s.sawEnd).srcLen = s.srcLen := rfl
@[simp] theorem State.sawEnd_dstAddr : (s.sawEnd).dstAddr = s.dstAddr := rfl
@[simp] theorem State.sawEnd_dstCap : (s.sawEnd).dstCap = s.dstCap := rfl
@[simp] theorem State.sawEnd_outLen : (s.sawEnd).outLen = s.outLen := rfl
@[simp] theorem State.sawEnd_consumed : (s.sawEnd).consumed = s.consumed := rfl
@[simp] theorem State.sawEnd_consumedHi : (s.sawEnd).consumedHi = s.consumedHi := rfl
@[simp] theorem State.sawEnd_last : (s.sawEnd).last = s.last := rfl
@[simp] theorem State.sawEnd_done : (s.sawEnd).done = s.done := rfl
@[simp] theorem State.sawEnd_errCode : (s.sawEnd).errCode = s.errCode := rfl
@[simp] theorem State.sawEnd_fsm : (s.sawEnd).fsm = s.fsm := rfl
@[simp] theorem State.sawEnd_prev : (s.sawEnd).prev = s.prev := rfl
@[simp] theorem State.sawEnd_ncur : (s.sawEnd).ncur = s.ncur := rfl
@[simp] theorem State.sawEnd_scur : (s.sawEnd).scur = s.scur := rfl
@[simp] theorem State.sawEnd_hold : (s.sawEnd).hold = s.hold := rfl
@[simp] theorem State.sawEnd_mem : (s.sawEnd).mem = s.mem := rfl
@[simp] theorem State.sawEnd_script : (s.sawEnd).script = s.script := rfl
@[simp] theorem State.sawEnd_rdata : (s.sawEnd).rdata = s.rdata := rfl
@[simp] theorem State.sawEnd_launch : (s.sawEnd).launch = none := rfl
@[simp] theorem State.sawEnd_draws : (s.sawEnd).draws = s.draws := rfl

/-! ### State.setHold -/

@[simp] theorem State.setHold_addrW (v : Nibble) : (s.setHold v).addrW = s.addrW := rfl
@[simp] theorem State.setHold_regBase (v : Nibble) : (s.setHold v).regBase = s.regBase := rfl
@[simp] theorem State.setHold_srcAddr (v : Nibble) : (s.setHold v).srcAddr = s.srcAddr := rfl
@[simp] theorem State.setHold_srcLen (v : Nibble) : (s.setHold v).srcLen = s.srcLen := rfl
@[simp] theorem State.setHold_dstAddr (v : Nibble) : (s.setHold v).dstAddr = s.dstAddr := rfl
@[simp] theorem State.setHold_dstCap (v : Nibble) : (s.setHold v).dstCap = s.dstCap := rfl
@[simp] theorem State.setHold_outLen (v : Nibble) : (s.setHold v).outLen = s.outLen := rfl
@[simp] theorem State.setHold_consumed (v : Nibble) : (s.setHold v).consumed = s.consumed := rfl
@[simp] theorem State.setHold_consumedHi (v : Nibble) : (s.setHold v).consumedHi = s.consumedHi := rfl
@[simp] theorem State.setHold_last (v : Nibble) : (s.setHold v).last = s.last := rfl
@[simp] theorem State.setHold_done (v : Nibble) : (s.setHold v).done = s.done := rfl
@[simp] theorem State.setHold_errCode (v : Nibble) : (s.setHold v).errCode = s.errCode := rfl
@[simp] theorem State.setHold_fsm (v : Nibble) : (s.setHold v).fsm = s.fsm := rfl
@[simp] theorem State.setHold_prev (v : Nibble) : (s.setHold v).prev = s.prev := rfl
@[simp] theorem State.setHold_ncur (v : Nibble) : (s.setHold v).ncur = s.ncur := rfl
@[simp] theorem State.setHold_scur (v : Nibble) : (s.setHold v).scur = s.scur := rfl
@[simp] theorem State.setHold_hold (v : Nibble) : (s.setHold v).hold = v := rfl
@[simp] theorem State.setHold_mem (v : Nibble) : (s.setHold v).mem = s.mem := rfl
@[simp] theorem State.setHold_script (v : Nibble) : (s.setHold v).script = s.script := rfl
@[simp] theorem State.setHold_rdata (v : Nibble) : (s.setHold v).rdata = s.rdata := rfl
@[simp] theorem State.setHold_launch (v : Nibble) : (s.setHold v).launch = s.launch := rfl
@[simp] theorem State.setHold_draws (v : Nibble) : (s.setHold v).draws = s.draws := rfl

/-! ### State.advance -/

@[simp] theorem State.advance_addrW (n : Nat) : (s.advance n).addrW = s.addrW := rfl
@[simp] theorem State.advance_regBase (n : Nat) : (s.advance n).regBase = s.regBase := rfl
@[simp] theorem State.advance_srcAddr (n : Nat) : (s.advance n).srcAddr = s.srcAddr := rfl
@[simp] theorem State.advance_srcLen (n : Nat) : (s.advance n).srcLen = s.srcLen := rfl
@[simp] theorem State.advance_dstAddr (n : Nat) : (s.advance n).dstAddr = s.dstAddr := rfl
@[simp] theorem State.advance_dstCap (n : Nat) : (s.advance n).dstCap = s.dstCap := rfl
@[simp] theorem State.advance_outLen (n : Nat) : (s.advance n).outLen = s.outLen := rfl
@[simp] theorem State.advance_consumed (n : Nat) : (s.advance n).consumed = s.consumed := rfl
@[simp] theorem State.advance_consumedHi (n : Nat) : (s.advance n).consumedHi = s.consumedHi := rfl
@[simp] theorem State.advance_last (n : Nat) : (s.advance n).last = s.last := rfl
@[simp] theorem State.advance_done (n : Nat) : (s.advance n).done = s.done := rfl
@[simp] theorem State.advance_errCode (n : Nat) : (s.advance n).errCode = s.errCode := rfl
@[simp] theorem State.advance_fsm (n : Nat) : (s.advance n).fsm = s.fsm := rfl
@[simp] theorem State.advance_prev (n : Nat) : (s.advance n).prev = s.prev := rfl
@[simp] theorem State.advance_ncur (n : Nat) : (s.advance n).ncur = s.ncur + BitVec.ofNat 33 n := rfl
@[simp] theorem State.advance_scur (n : Nat) : (s.advance n).scur = s.scur := rfl
@[simp] theorem State.advance_hold (n : Nat) : (s.advance n).hold = s.hold := rfl
@[simp] theorem State.advance_mem (n : Nat) : (s.advance n).mem = s.mem := rfl
@[simp] theorem State.advance_script (n : Nat) : (s.advance n).script = s.script := rfl
@[simp] theorem State.advance_rdata (n : Nat) : (s.advance n).rdata = s.rdata := rfl
@[simp] theorem State.advance_launch (n : Nat) : (s.advance n).launch = s.launch := rfl
@[simp] theorem State.advance_draws (n : Nat) : (s.advance n).draws = s.draws := rfl

/-! ### State.commit -/

@[simp] theorem State.commit_addrW (v : Byte) : (s.commit v).addrW = s.addrW := rfl
@[simp] theorem State.commit_regBase (v : Byte) : (s.commit v).regBase = s.regBase := rfl
@[simp] theorem State.commit_srcAddr (v : Byte) : (s.commit v).srcAddr = s.srcAddr := rfl
@[simp] theorem State.commit_srcLen (v : Byte) : (s.commit v).srcLen = s.srcLen := rfl
@[simp] theorem State.commit_dstAddr (v : Byte) : (s.commit v).dstAddr = s.dstAddr := rfl
@[simp] theorem State.commit_dstCap (v : Byte) : (s.commit v).dstCap = s.dstCap := rfl
@[simp] theorem State.commit_outLen (v : Byte) : (s.commit v).outLen = s.outLen := rfl
@[simp] theorem State.commit_consumed (v : Byte) : (s.commit v).consumed = s.consumed := rfl
@[simp] theorem State.commit_consumedHi (v : Byte) : (s.commit v).consumedHi = s.consumedHi := rfl
@[simp] theorem State.commit_last (v : Byte) : (s.commit v).last = s.last := rfl
@[simp] theorem State.commit_done (v : Byte) : (s.commit v).done = s.done := rfl
@[simp] theorem State.commit_errCode (v : Byte) : (s.commit v).errCode = s.errCode := rfl
@[simp] theorem State.commit_fsm (v : Byte) : (s.commit v).fsm = s.fsm := rfl
@[simp] theorem State.commit_prev (v : Byte) : (s.commit v).prev = v := rfl
@[simp] theorem State.commit_ncur (v : Byte) : (s.commit v).ncur = s.ncur := rfl
@[simp] theorem State.commit_scur (v : Byte) : (s.commit v).scur = s.scur + 1 := rfl
@[simp] theorem State.commit_hold (v : Byte) : (s.commit v).hold = s.hold := rfl
@[simp] theorem State.commit_mem (v : Byte) : (s.commit v).mem = s.mem := rfl
@[simp] theorem State.commit_script (v : Byte) : (s.commit v).script = s.script := rfl
@[simp] theorem State.commit_rdata (v : Byte) : (s.commit v).rdata = s.rdata := rfl
@[simp] theorem State.commit_launch (v : Byte) : (s.commit v).launch = s.launch := rfl
@[simp] theorem State.commit_draws (v : Byte) : (s.commit v).draws = s.draws := rfl

/-! ### State.start -/

@[simp] theorem State.start_addrW (f : Fsm) : (s.start f).addrW = s.addrW := rfl
@[simp] theorem State.start_regBase (f : Fsm) : (s.start f).regBase = s.regBase := rfl
@[simp] theorem State.start_srcAddr (f : Fsm) : (s.start f).srcAddr = s.srcAddr := rfl
@[simp] theorem State.start_srcLen (f : Fsm) : (s.start f).srcLen = s.srcLen := rfl
@[simp] theorem State.start_dstAddr (f : Fsm) : (s.start f).dstAddr = s.dstAddr := rfl
@[simp] theorem State.start_dstCap (f : Fsm) : (s.start f).dstCap = s.dstCap := rfl
@[simp] theorem State.start_outLen (f : Fsm) : (s.start f).outLen = s.outLen := rfl
@[simp] theorem State.start_consumed (f : Fsm) : (s.start f).consumed = s.consumed := rfl
@[simp] theorem State.start_consumedHi (f : Fsm) : (s.start f).consumedHi = s.consumedHi := rfl
@[simp] theorem State.start_last (f : Fsm) : (s.start f).last = s.last := rfl
@[simp] theorem State.start_done (f : Fsm) : (s.start f).done = false := rfl
@[simp] theorem State.start_errCode (f : Fsm) : (s.start f).errCode = .none := rfl
@[simp] theorem State.start_fsm (f : Fsm) : (s.start f).fsm = f := rfl
@[simp] theorem State.start_prev (f : Fsm) : (s.start f).prev = 0 := rfl
@[simp] theorem State.start_ncur (f : Fsm) : (s.start f).ncur = 0 := rfl
@[simp] theorem State.start_scur (f : Fsm) : (s.start f).scur = 0 := rfl
@[simp] theorem State.start_hold (f : Fsm) : (s.start f).hold = 0 := rfl
@[simp] theorem State.start_mem (f : Fsm) : (s.start f).mem = s.mem := rfl
@[simp] theorem State.start_script (f : Fsm) : (s.start f).script = s.script := rfl
@[simp] theorem State.start_rdata (f : Fsm) : (s.start f).rdata = s.rdata := rfl
@[simp] theorem State.start_launch (f : Fsm) : (s.start f).launch = some ⟨s.srcAddr.toNat, s.srcLen.toNat, s.dstAddr.toNat, s.dstCap.toNat, s.mem⟩ := rfl
@[simp] theorem State.start_draws (f : Fsm) : (s.start f).draws = s.draws := rfl

/-! ### State.endWith -/

@[simp] theorem State.endWith_addrW (e : ErrCode) (o c : Word) (h : BitVec 1) : (s.endWith e o c h).addrW = s.addrW := rfl
@[simp] theorem State.endWith_regBase (e : ErrCode) (o c : Word) (h : BitVec 1) : (s.endWith e o c h).regBase = s.regBase := rfl
@[simp] theorem State.endWith_srcAddr (e : ErrCode) (o c : Word) (h : BitVec 1) : (s.endWith e o c h).srcAddr = s.srcAddr := rfl
@[simp] theorem State.endWith_srcLen (e : ErrCode) (o c : Word) (h : BitVec 1) : (s.endWith e o c h).srcLen = s.srcLen := rfl
@[simp] theorem State.endWith_dstAddr (e : ErrCode) (o c : Word) (h : BitVec 1) : (s.endWith e o c h).dstAddr = s.dstAddr := rfl
@[simp] theorem State.endWith_dstCap (e : ErrCode) (o c : Word) (h : BitVec 1) : (s.endWith e o c h).dstCap = s.dstCap := rfl
@[simp] theorem State.endWith_outLen (e : ErrCode) (o c : Word) (h : BitVec 1) : (s.endWith e o c h).outLen = o := rfl
@[simp] theorem State.endWith_consumed (e : ErrCode) (o c : Word) (h : BitVec 1) : (s.endWith e o c h).consumed = c := rfl
@[simp] theorem State.endWith_consumedHi (e : ErrCode) (o c : Word) (h : BitVec 1) : (s.endWith e o c h).consumedHi = h := rfl
@[simp] theorem State.endWith_last (e : ErrCode) (o c : Word) (h : BitVec 1) : (s.endWith e o c h).last = s.prev := rfl
@[simp] theorem State.endWith_done (e : ErrCode) (o c : Word) (h : BitVec 1) : (s.endWith e o c h).done = true := rfl
@[simp] theorem State.endWith_errCode (e : ErrCode) (o c : Word) (h : BitVec 1) : (s.endWith e o c h).errCode = e := rfl
@[simp] theorem State.endWith_fsm (e : ErrCode) (o c : Word) (h : BitVec 1) : (s.endWith e o c h).fsm = .idle := rfl
@[simp] theorem State.endWith_prev (e : ErrCode) (o c : Word) (h : BitVec 1) : (s.endWith e o c h).prev = s.prev := rfl
@[simp] theorem State.endWith_ncur (e : ErrCode) (o c : Word) (h : BitVec 1) : (s.endWith e o c h).ncur = s.ncur := rfl
@[simp] theorem State.endWith_scur (e : ErrCode) (o c : Word) (h : BitVec 1) : (s.endWith e o c h).scur = s.scur := rfl
@[simp] theorem State.endWith_hold (e : ErrCode) (o c : Word) (h : BitVec 1) : (s.endWith e o c h).hold = s.hold := rfl
@[simp] theorem State.endWith_mem (e : ErrCode) (o c : Word) (h : BitVec 1) : (s.endWith e o c h).mem = s.mem := rfl
@[simp] theorem State.endWith_script (e : ErrCode) (o c : Word) (h : BitVec 1) : (s.endWith e o c h).script = s.script := rfl
@[simp] theorem State.endWith_rdata (e : ErrCode) (o c : Word) (h : BitVec 1) : (s.endWith e o c h).rdata = s.rdata := rfl
@[simp] theorem State.endWith_launch (e : ErrCode) (o c : Word) (h : BitVec 1) : (s.endWith e o c h).launch = s.launch := rfl
@[simp] theorem State.endWith_draws (e : ErrCode) (o c : Word) (h : BitVec 1) : (s.endWith e o c h).draws = s.draws := rfl

/-! ### State.rejectCommand -/

@[simp] theorem State.rejectCommand_addrW : (s.rejectCommand).addrW = s.addrW := rfl
@[simp] theorem State.rejectCommand_regBase : (s.rejectCommand).regBase = s.regBase := rfl
@[simp] theorem State.rejectCommand_srcAddr : (s.rejectCommand).srcAddr = s.srcAddr := rfl
@[simp] theorem State.rejectCommand_srcLen : (s.rejectCommand).srcLen = s.srcLen := rfl
@[simp] theorem State.rejectCommand_dstAddr : (s.rejectCommand).dstAddr = s.dstAddr := rfl
@[simp] theorem State.rejectCommand_dstCap : (s.rejectCommand).dstCap = s.dstCap := rfl
@[simp] theorem State.rejectCommand_outLen : (s.rejectCommand).outLen = s.outLen := rfl
@[simp] theorem State.rejectCommand_consumed : (s.rejectCommand).consumed = s.consumed := rfl
@[simp] theorem State.rejectCommand_consumedHi : (s.rejectCommand).consumedHi = s.consumedHi := rfl
@[simp] theorem State.rejectCommand_last : (s.rejectCommand).last = s.last := rfl
@[simp] theorem State.rejectCommand_done : (s.rejectCommand).done = true := rfl
@[simp] theorem State.rejectCommand_errCode : (s.rejectCommand).errCode = .badCmd := rfl
@[simp] theorem State.rejectCommand_fsm : (s.rejectCommand).fsm = s.fsm := rfl
@[simp] theorem State.rejectCommand_prev : (s.rejectCommand).prev = s.prev := rfl
@[simp] theorem State.rejectCommand_ncur : (s.rejectCommand).ncur = s.ncur := rfl
@[simp] theorem State.rejectCommand_scur : (s.rejectCommand).scur = s.scur := rfl
@[simp] theorem State.rejectCommand_hold : (s.rejectCommand).hold = s.hold := rfl
@[simp] theorem State.rejectCommand_mem : (s.rejectCommand).mem = s.mem := rfl
@[simp] theorem State.rejectCommand_script : (s.rejectCommand).script = s.script := rfl
@[simp] theorem State.rejectCommand_rdata : (s.rejectCommand).rdata = s.rdata := rfl
@[simp] theorem State.rejectCommand_launch : (s.rejectCommand).launch = s.launch := rfl
@[simp] theorem State.rejectCommand_draws : (s.rejectCommand).draws = s.draws := rfl

end Sys2Proof.Machine
end

