-- ==== Sys2Proof/Laws/Ops.lean ====
section
/-! SUPPORT. For each shared operation, what it can do, said once. -/

namespace Sys2Proof.Machine

/-! ## STATUS -/

theorem busy_iff {s : State} : busy s = true ↔ s.fsm ≠ .idle := by simp [busy]

theorem busy_eq_false {s : State} : busy s = false ↔ s.fsm = .idle := by simp [busy]

/-! ## Ranges of bytes -/

theorem inBuffer_iff {base len a : Nat} : inBuffer base len a = true ↔ base ≤ a ∧ a < base + len := by
  simp [inBuffer]

theorem disjoint_iff {a n b m : Nat} :
    disjoint a n b m = true ↔ n = 0 ∨ m = 0 ∨ a + n ≤ b ∨ b + m ≤ a := by
  simp [disjoint, or_assoc]

theorem disjoint_false_iff {a n b m : Nat} :
    disjoint a n b m = false ↔ 0 < n ∧ 0 < m ∧ b < a + n ∧ a < b + m := by
  rw [← Bool.not_eq_true, disjoint_iff]; omega

/-! ## The memory port -/

theorem memRead_eq_some {s : State} {a : Nat} {v : Byte} :
    memRead s a = some v ↔ a < 2 ^ s.addrW ∧ v = Memory.read s.mem a := by
  unfold memRead inMemory
  by_cases h : a < 2 ^ s.addrW <;> simp [h, eq_comm]

theorem memRead_of_lt {s : State} {a : Nat} (h : a < 2 ^ s.addrW) : memRead s a = some (Memory.read s.mem a) :=
  memRead_eq_some.mpr ⟨h, rfl⟩

theorem memWrite_eq_some {s t : State} {a : Nat} {v : Byte} :
    memWrite s a v = some t ↔ a < 2 ^ s.addrW ∧ t = s.setMem (Memory.write s.mem a v) := by
  unfold memWrite inMemory
  by_cases h : a < 2 ^ s.addrW <;> simp [h, eq_comm]

theorem memWrite_of_lt {s : State} {a : Nat} (v : Byte) (h : a < 2 ^ s.addrW) :
    memWrite s a v = some (s.setMem (Memory.write s.mem a v)) :=
  memWrite_eq_some.mpr ⟨h, rfl⟩

/-! ## The packer -/

/-- EmitNibble at an even cursor holds the nibble (R105). -/
theorem emitNibble_even {s : State} (v : Nibble) (h : s.ncur.toNat % 2 = 0) :
    emitNibble v s = some ((s.setHold v).advance 1) := by simp [emitNibble, h]

/-- EmitNibble at an odd cursor completes the byte of the held nibble (R105). -/
theorem emitNibble_odd {s : State} (v : Nibble) (h : s.ncur.toNat % 2 = 1) (ha : packAddr s < 2 ^ s.addrW) :
    emitNibble v s = some ((s.setMem (Memory.write s.mem (packAddr s) (packByte s.hold v))).advance 1) := by
  simp [emitNibble, h, memWrite_of_lt _ ha]

/-- Everything EmitNibble can do (R105). -/
theorem emitNibble_cases {s t : State} {v : Nibble} (h : emitNibble v s = some t) :
    (s.ncur.toNat % 2 = 0 ∧ t = (s.setHold v).advance 1) ∨
    (s.ncur.toNat % 2 = 1 ∧ packAddr s < 2 ^ s.addrW ∧
      t = (s.setMem (Memory.write s.mem (packAddr s) (packByte s.hold v))).advance 1) := by
  unfold emitNibble at h
  split at h
  · next he => exact .inl ⟨he, by simpa [eq_comm] using h⟩
  · next ho =>
    split at h
    · next u hu =>
      obtain ⟨ha, rfl⟩ := memWrite_eq_some.mp hu
      exact .inr ⟨by omega, ha, by simpa [eq_comm] using h⟩
    · cases h

/-- Everything Flush can do (R110). -/
theorem flush_cases {s t : State} (h : flush s = some t) :
    (s.ncur.toNat % 2 = 0 ∧ t = s) ∨
    (s.ncur.toNat % 2 = 1 ∧ packAddr s < 2 ^ s.addrW ∧
      t = s.setMem (Memory.write s.mem (packAddr s) (packByte s.hold 0))) := by
  unfold flush at h
  split at h
  · next ho =>
    obtain ⟨ha, rfl⟩ := memWrite_eq_some.mp h
    exact .inr ⟨ho, ha, rfl⟩
  · next he => exact .inl ⟨by omega, by simpa [eq_comm] using h⟩

/-- Everything the emission of nibbles can do while the cursor has room: it moves the cursor, changes the held nibble
and writes bytes it completes, all of them from the byte of the cursor on. -/
theorem emitNibbles_cases {c : List Nibble} {s t : State} (h : emitNibbles c s = some t)
    (hn : s.ncur.toNat + c.length < 2 ^ 33) :
    ∃ m v, t = { s with mem := m, hold := v, ncur := s.ncur + BitVec.ofNat 33 c.length } ∧
      (∀ a, a < packAddr s ∨ s.dstAddr.toNat + (s.ncur.toNat + c.length) / 2 ≤ a →
        Memory.read m a = Memory.read s.mem a) ∧
      (Memory.wf s.mem → Memory.wf m) ∧
      ∀ c' ∈ m, c'.1 < 2 ^ s.addrW ∨ c' ∈ s.mem := by
  induction c generalizing s with
  | nil =>
    refine ⟨s.mem, s.hold, ?_, fun _ _ => rfl, id, fun c hc => .inr hc⟩
    simpa [emitNibbles, eq_comm] using h
  | cons v vs ih =>
    simp only [emitNibbles] at h
    split at h
    · next u hu =>
      simp only [List.length_cons] at hn ⊢
      have hstep : (s.ncur + BitVec.ofNat 33 1).toNat = s.ncur.toNat + 1 := by
        rw [BitVec.toNat_add]; simp; omega
      rcases emitNibble_cases hu with ⟨he, rfl⟩ | ⟨ho, ha, rfl⟩
      · obtain ⟨m, w, rfl, hm, hwf, hin⟩ := ih h (by simp only [State.advance_ncur, State.setHold_ncur, hstep]; omega)
        refine ⟨m, w, ?_, ?_, hwf, hin⟩
        · simp only [State.advance, State.setHold]
          congr 1
          rw [BitVec.add_assoc]; congr 1
          rw [← BitVec.ofNat_add, Nat.add_comm]
        · intro a ha
          apply hm
          simp only [packAddr, State.advance_dstAddr, State.setHold_dstAddr, State.advance_ncur, State.setHold_ncur,
            hstep] at ha ⊢
          omega
      · obtain ⟨m, w, rfl, hm, hwf, hin⟩ := ih h (by simp only [State.advance_ncur, State.setMem_ncur, hstep]; omega)
        refine ⟨m, w, ?_, ?_, fun hs => hwf (Memory.wf_write _ _ hs), ?_⟩
        · simp only [State.advance, State.setMem]
          congr 1
          rw [BitVec.add_assoc]; congr 1
          rw [← BitVec.ofNat_add, Nat.add_comm]
        · intro a ha'
          rw [hm a (by
            simp only [packAddr, State.advance_dstAddr, State.setMem_dstAddr, State.advance_ncur, State.setMem_ncur,
              hstep] at ha' ⊢
            omega)]
          exact Memory.read_write_other (by simp only [packAddr] at ha' ⊢; omega)
        · intro c' hc'
          rcases hin c' hc' with hlt | hmem
          · exact .inl hlt
          · rcases Memory.mem_of_mem_write hmem with heq | hmem
            · exact .inl (by rw [heq]; exact ha)
            · exact .inr hmem
    · cases h

/-- Emission succeeds where every byte it may complete lies in memory. -/
theorem emitNibbles_succeeds {c : List Nibble} {s : State} (hn : s.ncur.toNat + c.length < 2 ^ 33)
    (ha : s.dstAddr.toNat + (s.ncur.toNat + c.length) / 2 ≤ 2 ^ s.addrW) : ∃ t, emitNibbles c s = some t := by
  induction c generalizing s with
  | nil => exact ⟨s, rfl⟩
  | cons v vs ih =>
    simp only [List.length_cons] at hn ha
    have hstep : (s.ncur + BitVec.ofNat 33 1).toNat = s.ncur.toNat + 1 := by
      rw [BitVec.toNat_add]; simp; omega
    rcases Nat.mod_two_eq_zero_or_one s.ncur.toNat with he | ho
    · simp only [emitNibbles, emitNibble_even v he]
      exact ih (by simp only [State.advance_ncur, State.setHold_ncur, hstep]; omega)
        (by simp only [State.advance_dstAddr, State.setHold_dstAddr, State.advance_addrW, State.setHold_addrW,
              State.advance_ncur, State.setHold_ncur, hstep]; omega)
    · simp only [emitNibbles, emitNibble_odd v ho (by simp only [packAddr]; omega)]
      exact ih (by simp only [State.advance_ncur, State.setMem_ncur, hstep]; omega)
        (by simp only [State.advance_dstAddr, State.setMem_dstAddr, State.advance_addrW, State.setMem_addrW,
              State.advance_ncur, State.setMem_ncur, hstep]; omega)

/-! ## The end of a command -/

/-- Everything `finish` can do (R111, R150): it ends the running command; ENCODE's flush is the one write. -/
theorem finishCommand_cases {s t : State} {e : ErrCode} (h : finishCommand e s = .next t) :
    (s.fsm = .encRun ∧ s.ncur.toNat % 2 = 0 ∧
      t = s.endWith e (BitVec.ofNat 32 ((s.ncur.toNat + 1) / 2)) s.scur 0) ∨
    (s.fsm = .encRun ∧ s.ncur.toNat % 2 = 1 ∧ packAddr s < 2 ^ s.addrW ∧
      t = (s.setMem (Memory.write s.mem (packAddr s) (packByte s.hold 0))).endWith e
        (BitVec.ofNat 32 ((s.ncur.toNat + 1) / 2)) s.scur 0) ∨
    (s.fsm = .decRun ∧ t = s.endWith e s.scur (s.ncur.extractLsb' 0 32) (s.ncur.extractLsb' 32 1)) := by
  unfold finishCommand at h
  split at h
  · cases h
  · next hf =>
    unfold finishEncode at h
    split at h
    · next u hu =>
      rcases flush_cases hu with ⟨he, rfl⟩ | ⟨ho, ha, rfl⟩
      · exact .inl ⟨hf, he, by simpa [eq_comm] using h⟩
      · exact .inr (.inl ⟨hf, ho, ha, by simpa [eq_comm] using h⟩)
    · cases h
  · next hf => exact .inr (.inr ⟨hf, by simpa [finishDecode, eq_comm] using h⟩)

/-! ## The start of a command -/

/-- The preconditions of R69, as one proposition. -/
theorem startRefusal_eq_none {s : State} :
    startRefusal s = none ↔
      s.srcAddr.toNat + s.srcLen.toNat ≤ 2 ^ s.addrW ∧ s.dstAddr.toNat + s.dstCap.toNat ≤ 2 ^ s.addrW ∧
      disjoint s.srcAddr.toNat s.srcLen.toNat s.dstAddr.toNat s.dstCap.toNat = true ∧
      disjoint s.srcAddr.toNat s.srcLen.toNat s.regBase windowBytes = true ∧
      disjoint s.dstAddr.toNat s.dstCap.toNat s.regBase windowBytes = true := by
  unfold startRefusal
  simp only
  split
  · simp; omega
  · split
    · next h => simp [h]
    · split
      · next h => rcases h with h | h <;> simp [h]
      · next h1 h2 h3 =>
        simp only [not_or, Bool.not_eq_false] at h2 h3
        simp only [true_iff]
        exact ⟨by omega, by omega, h2, h3.1, h3.2⟩

/-- Everything a start can do (R171, R172, R35). -/
theorem startCommand_cases {f : Fsm} {s t : State} (h : startCommand f s = .next t) :
    (s.fsm ≠ .idle ∧ t = s) ∨ (s.fsm = .idle ∧ startRefusal s = none ∧ t = s.start f) := by
  unfold startCommand at h
  split at h
  · next hb => exact .inl ⟨busy_iff.mp hb, by simpa [eq_comm] using h⟩
  · next hb =>
    have hi : s.fsm = .idle := busy_eq_false.mp (by simpa using hb)
    split at h
    · cases h
    · next hr => exact .inr ⟨hi, hr, by simpa [eq_comm] using h⟩

/-! ## The shared steps of the code words -/

/-- Everything the encoder step of a word can do (R101): end, or emit and commit. -/
theorem emitWord_cases {c : List Nibble} {s t : State} (h : emitWord c s = .next t) :
    s.fsm = .encRun ∧
    ((s.scur = s.srcLen ∧ finishCommand .none s = .next t) ∨
     (s.scur ≠ s.srcLen ∧ inputAddr s < 2 ^ s.addrW ∧ 2 * s.dstCap.toNat < s.ncur.toNat + c.length ∧
        finishCommand .overflow s = .next t) ∨
     (s.scur ≠ s.srcLen ∧ inputAddr s < 2 ^ s.addrW ∧ s.ncur.toNat + c.length ≤ 2 * s.dstCap.toNat ∧
        ∃ u, emitNibbles c s = some u ∧ t = u.commit (Memory.read s.mem (inputAddr s)))) := by
  unfold emitWord at h
  split at h
  · cases h
  · next hf =>
    refine ⟨by simpa using hf, ?_⟩
    split at h
    · next he => exact .inl ⟨by simpa [encodeEnds] using he, h⟩
    · next he =>
      have hne : s.scur ≠ s.srcLen := by simpa [encodeEnds] using he
      split at h
      · cases h
      · next smp hs =>
        obtain ⟨ha, rfl⟩ := memRead_eq_some.mp hs
        split at h
        · next ho => exact .inr (.inl ⟨hne, ha, ho, h⟩)
        · next ho =>
          split at h
          · cases h
          · next u hu => exact .inr (.inr ⟨hne, ha, by omega, u, hu, by simpa [eq_comm] using h⟩)

/-- When DECODE ends before it takes a word (R132, R133). -/
theorem decodeEnds_iff {s : State} :
    decodeEnds s = true ↔ s.scur = s.dstCap ∨ 2 * s.srcLen.toNat ≤ s.ncur.toNat := by
  simp [decodeEnds, available]

/-- Everything that can happen to a decoder's word before its own part (R141, R149). -/
theorem withWord_cases {need : Nat} {k : State → Host.Outcome State Fault Refusal} {s t : State}
    (h : withWord need k s = .next t) :
    s.fsm = .decRun ∧
    ((decodeEnds s = true ∧ finishCommand .none s = .next t) ∨
     (decodeEnds s = false ∧ 2 * s.srcLen.toNat ≤ s.ncur.toNat + (need - 1) ∧
        finishCommand .truncated s = .next t) ∨
     (decodeEnds s = false ∧ s.ncur.toNat + (need - 1) < 2 * s.srcLen.toNat ∧ k s = .next t)) := by
  unfold withWord at h
  split at h
  · cases h
  · next hf =>
    refine ⟨by simpa using hf, ?_⟩
    split at h
    · next he => exact .inl ⟨he, h⟩
    · next he =>
      have he' : decodeEnds s = false := by simpa using he
      split at h
      · next ha => exact .inr (.inl ⟨he', by simpa [available] using ha, h⟩)
      · next ha => exact .inr (.inr ⟨he', by simpa [available] using ha, h⟩)

/-- Everything WriteSample can do (R148). -/
theorem writeSample_cases {len : Nat} {v : Byte} {s t : State} (h : writeSample len v s = .next t) :
    sampleAddr s < 2 ^ s.addrW ∧
      t = ((s.setMem (Memory.write s.mem (sampleAddr s) v)).commit v).advance len := by
  unfold writeSample at h
  split at h
  · cases h
  · next u hu =>
    obtain ⟨ha, rfl⟩ := memWrite_eq_some.mp hu
    exact ⟨ha, by simpa [eq_comm] using h⟩

/-- Everything a decoder's word with a delta can do (R131, R147, R148). -/
theorem decodeDelta_cases {len : Nat} {d : Int} {s t : State} (h : decodeDelta len d s = .next t) :
    s.fsm = .decRun ∧
    ((decodeEnds s = true ∧ finishCommand .none s = .next t) ∨
     (decodeEnds s = false ∧ 2 * s.srcLen.toNat ≤ s.ncur.toNat + (len - 1) ∧
        finishCommand .truncated s = .next t) ∨
     (decodeEnds s = false ∧ s.ncur.toNat + (len - 1) < 2 * s.srcLen.toNat ∧
        isSample (reconstruct s.prev d) = false ∧ finishCommand .range s = .next t) ∨
     (decodeEnds s = false ∧ s.ncur.toNat + (len - 1) < 2 * s.srcLen.toNat ∧
        isSample (reconstruct s.prev d) = true ∧ sampleAddr s < 2 ^ s.addrW ∧
        t = ((s.setMem (Memory.write s.mem (sampleAddr s) (BitVec.ofInt 8 (reconstruct s.prev d)))).commit
              (BitVec.ofInt 8 (reconstruct s.prev d))).advance len)) := by
  obtain ⟨hf, h | h | ⟨he, ha, h⟩⟩ := withWord_cases h
  · exact ⟨hf, .inl h⟩
  · exact ⟨hf, .inr (.inl h)⟩
  · refine ⟨hf, ?_⟩
    simp only at h
    split at h
    · next hv =>
      obtain ⟨hw, rfl⟩ := writeSample_cases h
      exact .inr (.inr (.inr ⟨he, ha, hv, hw, rfl⟩))
    · next hv => exact .inr (.inr (.inl ⟨he, ha, by simpa using hv, h⟩))

/-! ## The shared steps where they succeed -/

/-- The cursor counts without wrapping while it has room (R45). -/
theorem ncur_add_toNat {x : NCursor} {n : Nat} (h : x.toNat + n < 2 ^ 33) :
    (x + BitVec.ofNat 33 n).toNat = x.toNat + n := by
  rw [BitVec.toNat_add, BitVec.toNat_ofNat]; omega

/-- Two nibbles from an even cursor make one byte (R61, R105). -/
theorem emitNibbles_pair_even {s : State} (a b : Nibble) (c : List Nibble) (he : s.ncur.toNat % 2 = 0)
    (hn : s.ncur.toNat + 2 < 2 ^ 33) (ha : packAddr s < 2 ^ s.addrW) :
    emitNibbles (a :: b :: c) s =
      emitNibbles c { s with mem := Memory.write s.mem (packAddr s) (b ++ a), hold := a, ncur := s.ncur + 2 } := by
  have h1 : (s.ncur + BitVec.ofNat 33 1).toNat = s.ncur.toNat + 1 := ncur_add_toNat (by omega)
  have hp : packAddr ((s.setHold a).advance 1) = packAddr s := by
    simp only [packAddr, State.advance_dstAddr, State.setHold_dstAddr, State.advance_ncur, State.setHold_ncur, h1]
    omega
  have hodd : ((s.setHold a).advance 1).ncur.toNat % 2 = 1 := by
    simp only [State.advance_ncur, State.setHold_ncur, h1]; omega
  have e : s.ncur + BitVec.ofNat 33 1 + BitVec.ofNat 33 1 = s.ncur + 2 := by rw [BitVec.add_assoc]; rfl
  simp only [emitNibbles, emitNibble_even a he, emitNibble_odd b hodd (by rw [hp]; exact ha), hp]
  simp only [State.advance, State.setMem, State.setHold, packByte, e]

/-- Two nibbles from an odd cursor complete one byte and start the next (R61, R105). -/
theorem emitNibbles_pair_odd {s : State} (a b : Nibble) (c : List Nibble) (ho : s.ncur.toNat % 2 = 1)
    (hn : s.ncur.toNat + 2 < 2 ^ 33) (ha : packAddr s < 2 ^ s.addrW) :
    emitNibbles (a :: b :: c) s =
      emitNibbles c { s with mem := Memory.write s.mem (packAddr s) (a ++ s.hold), hold := b, ncur := s.ncur + 2 } := by
  have h1 : (s.ncur + BitVec.ofNat 33 1).toNat = s.ncur.toNat + 1 := ncur_add_toNat (by omega)
  have e : s.ncur + BitVec.ofNat 33 1 + BitVec.ofNat 33 1 = s.ncur + 2 := by rw [BitVec.add_assoc]; rfl
  have heven : ((s.setMem (Memory.write s.mem (packAddr s) (packByte s.hold a))).advance 1).ncur.toNat % 2 = 0 := by
    simp only [State.advance_ncur, State.setMem_ncur, h1]; omega
  simp only [emitNibbles, emitNibble_odd a ho ha, emitNibble_even b heven]
  simp only [State.advance, State.setMem, State.setHold, packByte, e]

/-- The encoder step of a word that fits, once its nibbles are emitted (R101, R106, R107). -/
theorem emitWord_commits {c : List Nibble} {s u : State} (hf : s.fsm = .encRun) (hne : s.scur ≠ s.srcLen)
    (ha : inputAddr s < 2 ^ s.addrW) (hc : s.ncur.toNat + c.length ≤ 2 * s.dstCap.toNat)
    (hu : emitNibbles c s = some u) : emitWord c s = .next (u.commit (Memory.read s.mem (inputAddr s))) := by
  have he : encodeEnds s = false := by simpa [encodeEnds] using hne
  simp [emitWord, hf, he, memRead_of_lt ha, show ¬ 2 * s.dstCap.toNat < s.ncur.toNat + c.length by omega, hu]

/-- The encoder step of a word that does not fit (R106). -/
theorem emitWord_overflows {c : List Nibble} {s : State} (hf : s.fsm = .encRun) (hne : s.scur ≠ s.srcLen)
    (ha : inputAddr s < 2 ^ s.addrW) (hc : 2 * s.dstCap.toNat < s.ncur.toNat + c.length) :
    emitWord c s = finishCommand .overflow s := by
  have he : encodeEnds s = false := by simpa [encodeEnds] using hne
  simp [emitWord, hf, he, memRead_of_lt ha, hc]

/-- finish of ENCODE at an even cursor (R111). -/
theorem finishCommand_enc_even {s : State} (e : ErrCode) (hf : s.fsm = .encRun) (h : s.ncur.toNat % 2 = 0) :
    finishCommand e s = .next (s.endWith e (BitVec.ofNat 32 ((s.ncur.toNat + 1) / 2)) s.scur 0) := by
  simp [finishCommand, hf, finishEncode, flush, h]

/-- finish of ENCODE at an odd cursor, with its flush (R110, R111). -/
theorem finishCommand_enc_odd {s : State} (e : ErrCode) (hf : s.fsm = .encRun) (h : s.ncur.toNat % 2 = 1)
    (ha : packAddr s < 2 ^ s.addrW) :
    finishCommand e s = .next ((s.setMem (Memory.write s.mem (packAddr s) (packByte s.hold 0))).endWith e
      (BitVec.ofNat 32 ((s.ncur.toNat + 1) / 2)) s.scur 0) := by
  simp [finishCommand, hf, finishEncode, flush, h, memWrite_of_lt _ ha]

/-- finish of DECODE (R150). -/
theorem finishCommand_dec {s : State} (e : ErrCode) (hf : s.fsm = .decRun) :
    finishCommand e s = .next (s.endWith e s.scur (s.ncur.extractLsb' 0 32) (s.ncur.extractLsb' 32 1)) := by
  simp [finishCommand, hf, finishDecode]

/-- A decoder's word with a sample in range, all its nibbles available (R147, R148). -/
theorem decodeDelta_writes {len : Nat} {d : Int} {s : State} {n : Nat} (hf : s.fsm = .decRun)
    (he : decodeEnds s = false) (hl : 1 ≤ len) (h : s.ncur.toNat + len ≤ 2 * s.srcLen.toNat)
    (ha : sampleAddr s < 2 ^ s.addrW) (hv : reconstruct s.prev d = n) (hn : n ≤ 255) :
    decodeDelta len d s = .next
      (((s.setMem (Memory.write s.mem (sampleAddr s) (BitVec.ofNat 8 n))).commit (BitVec.ofNat 8 n)).advance len) := by
  have hav : available s (s.ncur.toNat + (len - 1)) = true := by simp [available]; omega
  have hs : isSample (n : Int) = true := by simp [isSample]; omega
  simp [decodeDelta, withWord, hf, he, hav, hv, hs, writeSample, memWrite_of_lt _ ha, BitVec.ofInt_natCast]

/-! ## Which instruction runs -/

/-- Classify gives an emission of the encoder (R109). -/
theorem classify_cases (d : Int) :
    (∃ v, classify d = .encShort v) ∨ (∃ g m, classify d = .encMid g m) ∨
      ∃ g lo hi, classify d = .encEsc g lo hi := by
  unfold classify
  simp only
  split
  · exact .inl ⟨_, rfl⟩
  · split
    · exact .inr (.inl ⟨_, _, rfl⟩)
    · exact .inr (.inr ⟨_, _, _, rfl⟩)

/-- The decoder's table gives a code word of the decoder (R85). -/
theorem decodeWindow_cases (w : Window) :
    (∃ n, decodeWindow w = .decShort n) ∨ (∃ m, decodeWindow w = .decMidNeg m) ∨
    (∃ m, decodeWindow w = .decMidPos m) ∨ (∃ lo hi, decodeWindow w = .decEscNeg lo hi) ∨
    (∃ n, decodeWindow w = .decEscBad n) ∨ ∃ lo hi, decodeWindow w = .decEscPos lo hi := by
  unfold decodeWindow
  simp only
  split_ifs <;> simp

/-- A decoder's word is one with a delta, or the illegal escape. -/
theorem exec_decoder_word {i : Instr} (h : 0 < inspectedNibbles i) (s : State) :
    (∃ d, exec i s = decodeDelta (inspectedNibbles i) d s) ∨ exec i s = withWord 2 (finishCommand .badEscape) s := by
  cases i <;> simp [inspectedNibbles] at h <;>
    first
      | exact .inl ⟨_, rfl⟩
      | exact .inr rfl

/-- The emission of an encoder's word is the encoder step on its nibbles (R101). -/
theorem exec_classify (d : Int) (s : State) : exec (classify d) s = emitWord (wordNibbles (classify d)) s := by
  rcases classify_cases d with ⟨v, h⟩ | ⟨g, m, h⟩ | ⟨g, lo, hi, h⟩ <;> rw [h] <;> rfl

/-- An emission has 1, 2 or 4 nibbles (R80). -/
theorem wordNibbles_classify_length (d : Int) :
    (wordNibbles (classify d)).length = 1 ∨ (wordNibbles (classify d)).length = 2 ∨
      (wordNibbles (classify d)).length = 4 := by
  rcases classify_cases d with ⟨v, h⟩ | ⟨g, m, h⟩ | ⟨g, lo, hi, h⟩ <;> rw [h] <;> simp [wordNibbles]

/-! ## The step -/

theorem step_nil {s : State} (h : s.script = []) : step s = engineStep s := by simp [step, nextMove, h]

theorem step_cons {s : State} {m : Move} {rest : List Move} (h : s.script = m :: rest) :
    step s = makeMove m (s.setScript rest) := by simp [step, nextMove, h]

end Sys2Proof.Machine
end

