-- ==== Sys2Proof/Laws/Engine.lean ====
section
/-! SUPPORT. What an engine step can do, said once, and the cursor arithmetic of it. -/

namespace Sys2Proof.Machine

/-- Whichever way the next move is the engine's, the step is the engine's. -/
theorem step_of_engineTurn {s u : State} (h : engineTurn s u) : step s = engineStep u := by
  obtain ⟨h, rfl⟩ | ⟨rest, h, rfl⟩ | ⟨rest, h, hb, rfl⟩ := h
  · exact step_nil h
  · exact step_cons h
  · rw [step_cons h]
    simp [makeMove, busy, hb, State.setScript, ← h]

/-- Everything an engine step can do (R44, R101, R131): nothing in IDLE; the end of the command; one sample encoded; one
sample decoded. -/
theorem engineStep_cases {s t : State} (h : engineStep s = .next t) :
    (s.fsm = .idle ∧ t = s) ∨
    (s.fsm ≠ .idle ∧ ∃ e, finishCommand e s = .next t) ∨
    (s.fsm = .encRun ∧ s.scur ≠ s.srcLen ∧ inputAddr s < 2 ^ s.addrW ∧
      ∃ c u, c = wordNibbles (classify (delta s.prev (Memory.read s.mem (inputAddr s)))) ∧
        s.ncur.toNat + c.length ≤ 2 * s.dstCap.toNat ∧ emitNibbles c s = some u ∧
        t = u.commit (Memory.read s.mem (inputAddr s))) ∨
    (s.fsm = .decRun ∧ decodeEnds s = false ∧
      ∃ len v, 1 ≤ len ∧ len ≤ 4 ∧ s.ncur.toNat + len ≤ 2 * s.srcLen.toNat ∧ sampleAddr s < 2 ^ s.addrW ∧
        t = ((s.setMem (Memory.write s.mem (sampleAddr s) v)).commit v).advance len) := by
  unfold engineStep at h
  split at h
  · next hf => exact .inl ⟨hf, by simpa [eq_comm] using h⟩
  · next hf =>
    have hne : s.fsm ≠ .idle := by rw [hf]; decide
    unfold encodeStep at h
    split at h
    · exact .inr (.inl ⟨hne, _, h⟩)
    · split at h
      · cases h
      · next smp hs =>
        obtain ⟨ha, rfl⟩ := memRead_eq_some.mp hs
        rw [exec_classify] at h
        obtain ⟨_, ⟨_, h⟩ | ⟨_, _, _, h⟩ | ⟨hn, _, hc, u, hu, rfl⟩⟩ := emitWord_cases h
        · exact .inr (.inl ⟨hne, _, h⟩)
        · exact .inr (.inl ⟨hne, _, h⟩)
        · exact .inr (.inr (.inl ⟨hf, hn, ha, _, u, rfl, hc, hu, rfl⟩))
  · next hf =>
    have hne : s.fsm ≠ .idle := by rw [hf]; decide
    unfold decodeStep at h
    split at h
    · exact .inr (.inl ⟨hne, _, h⟩)
    · split at h
      · cases h
      · next ns hns =>
        have hi : 0 < inspectedNibbles (decodeWindow (windowOf ns)) ∧
            inspectedNibbles (decodeWindow (windowOf ns)) ≤ 4 := by
          rcases decodeWindow_cases (windowOf ns) with ⟨_, e⟩ | ⟨_, e⟩ | ⟨_, e⟩ | ⟨_, _, e⟩ | ⟨_, e⟩ | ⟨_, _, e⟩ <;>
            rw [e] <;> simp [inspectedNibbles]
        rcases exec_decoder_word hi.1 s with ⟨d, he⟩ | he <;> rw [he] at h
        · obtain ⟨_, ⟨_, h⟩ | ⟨_, _, h⟩ | ⟨_, _, _, h⟩ | ⟨hd, ha, _, hw, rfl⟩⟩ := decodeDelta_cases h
          · exact .inr (.inl ⟨hne, _, h⟩)
          · exact .inr (.inl ⟨hne, _, h⟩)
          · exact .inr (.inl ⟨hne, _, h⟩)
          · exact .inr (.inr (.inr ⟨hf, hd, _, _, hi.1, hi.2, by omega, hw, rfl⟩))
        · obtain ⟨_, ⟨_, h⟩ | ⟨_, _, h⟩ | ⟨_, _, h⟩⟩ := withWord_cases h
          · exact .inr (.inl ⟨hne, _, h⟩)
          · exact .inr (.inl ⟨hne, _, h⟩)
          · exact .inr (.inl ⟨hne, _, h⟩)

/-- The sample cursor counts without wrapping below a bound it has not reached (R45). -/
theorem scur_succ_toNat {x y : Word} (hle : x.toNat ≤ y.toNat) (hne : x ≠ y) :
    (x + 1).toNat = x.toNat + 1 ∧ x.toNat < y.toNat := by
  have hlt : x.toNat < y.toNat := lt_of_le_of_ne hle fun h => hne (BitVec.eq_of_toNat_eq h)
  have := y.isLt
  refine ⟨?_, hlt⟩
  rw [BitVec.toNat_add, show (1 : Word).toNat = 1 from rfl]
  omega

/-- The preconditions of R69 depend on the parameters and the operands only. -/
theorem startRefusal_congr {s t : State} (hw : t.addrW = s.addrW) (hr : t.regBase = s.regBase)
    (hs : t.srcAddr = s.srcAddr) (hl : t.srcLen = s.srcLen) (hd : t.dstAddr = s.dstAddr) (hc : t.dstCap = s.dstCap) :
    startRefusal t = startRefusal s := by
  simp [startRefusal, hw, hr, hs, hl, hd, hc]

/-- A write below 2^ADDR_W keeps memory within it. -/
theorem Memory.within_write {m : Memory} {w a : Nat} (v : Byte) (h : Memory.within m w) (ha : a < 2 ^ w) :
    Memory.within (Memory.write m a v) w := by
  intro c hc
  rcases Memory.mem_of_mem_write hc with e | hm
  · rw [e]; exact ha
  · exact h c hm

/-- Memory after reset is in its canonical form. -/
theorem Memory.wf_reset (w r : Nat) : Memory.wf (State.resetWith w r).mem := by simp [State.resetWith, Memory.wf]

/-- NibbleAt where its byte lies in memory (R62). -/
theorem nibbleAt_of_lt {s : State} {k : Nat} (h : s.srcAddr.toNat + k / 2 < 2 ^ s.addrW) :
    nibbleAt s k = some (memNibble s.mem s.srcAddr.toNat k) := by
  simp [nibbleAt, memRead_of_lt h, memNibble]

/-- Inspecting a word succeeds where the input buffer lies in memory (R64). -/
theorem inspectWord_succeeds {s : State} (h : s.srcAddr.toNat + s.srcLen.toNat ≤ 2 ^ s.addrW)
    (hk : s.ncur.toNat < 2 * s.srcLen.toNat) : ∃ ns, inspectWord s = some ns := by
  unfold inspectWord
  rw [nibbleAt_of_lt (by omega)]
  simp only
  split
  · exact ⟨_, rfl⟩
  · next h1 =>
    simp only [available, not_or, Bool.not_eq_false, decide_eq_true_eq] at h1
    rw [nibbleAt_of_lt (by omega)]
    simp only
    split
    · exact ⟨_, rfl⟩
    · next h2 =>
      simp only [available, not_or, Bool.not_eq_false, decide_eq_true_eq] at h2
      rw [nibbleAt_of_lt (by omega), nibbleAt_of_lt (by omega)]
      exact ⟨_, rfl⟩

/-- An engine step changes neither parameters, operands nor the host's side. -/
theorem engineStep_frame {s t : State} (h : engineStep s = .next t) :
    t.addrW = s.addrW ∧ t.regBase = s.regBase ∧ t.srcAddr = s.srcAddr ∧ t.srcLen = s.srcLen ∧
    t.dstAddr = s.dstAddr ∧ t.dstCap = s.dstCap ∧ t.script = s.script ∧ t.rdata = s.rdata ∧
    t.launch = s.launch ∧ t.draws = s.draws := by
  rcases engineStep_cases h with ⟨_, rfl⟩ | ⟨_, e, h⟩ | ⟨_, _, _, c, u, _, hc, hu, rfl⟩ | ⟨_, _, _, _, _, _, _, _, rfl⟩
  · simp
  · rcases finishCommand_cases h with ⟨_, _, rfl⟩ | ⟨_, _, _, rfl⟩ | ⟨_, rfl⟩ <;> simp
  · have := s.dstCap.isLt
    obtain ⟨m, w, rfl, _⟩ := emitNibbles_cases hu (by omega)
    simp
  · simp

end Sys2Proof.Machine
end

