-- ==== Sys2Proof/Laws/PerInstr.lean ====
section
/-! SUPPORT. Per instruction: a well-formed instruction's encoding matches its row of the opcode table (30_encoding.md
R81, R90). -/

namespace Sys2Proof.Laws

/-- The encoding of a well-formed instruction matches the row it belongs to, and that row is in the table. -/
def TableRow.Statement (i : Instr) : Prop :=
  wellFormed i = true → rowMatches (rowOf i) (tableWord (encode i)) = true ∧ rowOf i ∈ rowsOf (encode i)

theorem TableRow.decShort (n0 : Nibble) : TableRow.Statement (.decShort n0) := by
  unfold TableRow.Statement; revert n0; decide

theorem TableRow.decMidNeg (m : Nibble) : TableRow.Statement (.decMidNeg m) := by
  unfold TableRow.Statement; revert m; decide

theorem TableRow.decMidPos (m : Nibble) : TableRow.Statement (.decMidPos m) := by
  unfold TableRow.Statement; revert m; decide

theorem TableRow.decEscNeg (lo hi : Nibble) : TableRow.Statement (.decEscNeg lo hi) := by
  unfold TableRow.Statement; revert lo hi; decide

theorem TableRow.decEscBad (n1 : Nibble) : TableRow.Statement (.decEscBad n1) := by
  unfold TableRow.Statement; revert n1; decide

theorem TableRow.decEscPos (lo hi : Nibble) : TableRow.Statement (.decEscPos lo hi) := by
  unfold TableRow.Statement; revert lo hi; decide

theorem TableRow.encShort (v : Nibble) : TableRow.Statement (.encShort v) := by
  unfold TableRow.Statement; revert v; decide

theorem TableRow.encMid (sgn : Sign) (m : Nibble) : TableRow.Statement (.encMid sgn m) := by
  unfold TableRow.Statement; cases sgn <;> revert m <;> decide

theorem TableRow.encEsc (sgn : Sign) (lo hi : Nibble) : TableRow.Statement (.encEsc sgn lo hi) := by
  unfold TableRow.Statement; cases sgn <;> revert lo hi <;> decide

theorem TableRow.nop : TableRow.Statement .nop := by unfold TableRow.Statement; decide

theorem TableRow.startEncode : TableRow.Statement .startEncode := by unfold TableRow.Statement; decide

theorem TableRow.startDecode : TableRow.Statement .startDecode := by unfold TableRow.Statement; decide

theorem TableRow.reserved : TableRow.Statement .reserved := by unfold TableRow.Statement; decide

end Sys2Proof.Laws
end

