-- ==== Sys2Proof/Tests/Slice0.lean ====
section
/-! SUPPORT. The model's own tests: ill-formed terms refused, words written out from the spec's encodings, one step of
each instruction against a vector of 95_test_vectors.md, and for every statement with hypotheses a state that meets
them. -/

namespace Sys2Proof.Tests

set_option Elab.async false

open Sys2Proof.Machine

/-! ## Helpers -/

/-- The outcome is a next state that passes the check. -/
def after (o : Host.Outcome State Fault Refusal) (p : State → Bool) : Bool :=
  match o with
  | .next t => p t
  | .fault _ => false
  | .refused _ => false

/-- The outcome is this refusal. -/
def refuses (o : Host.Outcome State Fault Refusal) (r : Refusal) : Bool :=
  match o with
  | .next _ => false
  | .fault _ => false
  | .refused q => q = r

/-- The outcome is this fault. -/
def faults (o : Host.Outcome State Fault Refusal) (r : Fault) : Bool :=
  match o with
  | .next _ => false
  | .fault q => q = r
  | .refused _ => false

theorem next_of_after {o : Host.Outcome State Fault Refusal} {p : State → Bool} (h : after o p = true) :
    ∃ t, o = .next t := by
  cases o with
  | next t => exact ⟨t, rfl⟩
  | fault r => simp [after] at h
  | refused r => simp [after] at h

/-- Memory with bytes from an address on. -/
def bytes (base : Nat) : List Byte → Memory
  | [] => []
  | b :: bs => Memory.write (bytes (base + 1) bs) base b

/-- A machine with a command of these buffers just started, `input` at 0x1000 and the output at 0x2000. -/
def started (f : Fsm) (input : List Byte) (len cap : Word) : State :=
  { State.reset with srcAddr := 0x1000, srcLen := len, dstAddr := 0x2000, dstCap := cap, mem := bytes 0x1000 input }.start f

/-- ENCODE of `00 FF` into three bytes (vector E18). -/
def encE18 : State := started .encRun [0x00, 0xFF] 2 3

/-- DECODE of `DF 46 EE` with M = 2 (vector D30). -/
def decD30 : State := started .decRun [0xDF, 0x46, 0xEE] 3 2

/-! ## WellFormed refuses an ill-formed term for each check -/

theorem test_wf_short : wellFormed (.decShort 0xD) = false ∧ wellFormed (.encShort 0xD) = false := by decide

theorem test_wf_bad_escape : wellFormed (.decEscBad 0xD) = false ∧ wellFormed (.decEscBad 0xE) = false := by decide

theorem test_wf_mid : wellFormed (.encMid .neg 0x0) = false ∧ wellFormed (.encMid .pos 0xE) = false := by decide

theorem test_wf_esc : wellFormed (.encEsc .neg 0x3 0x1) = false ∧ wellFormed (.encEsc .neg 0x4 0x1) = true := by decide

/-! ## Words written out from the encodings of the spec -/

/-- R80 format S, R140: n0 = 0x8. -/
theorem test_word_decShort : decodeBytes [0b01101000] = .ok (.decShort 0b1000, [0b0110]) := by decide

/-- R80 format M, R142: nibbles D A (vector E11's byte AD). -/
theorem test_word_decMidNeg : decodeBytes [0b10101101] = .ok (.decMidNeg 0b1010, []) := by decide

/-- R80 format M, R143: nibbles E 2. -/
theorem test_word_decMidPos : decodeBytes [0b00101110] = .ok (.decMidPos 0b0010, []) := by decide

/-- R80 format E, R144: nibbles F D 0 2 (ESC -32 of R91). -/
theorem test_word_decEscNeg : decodeBytes [0b11011111, 0b00100000] = .ok (.decEscNeg 0b0000 0b0010, []) := by decide

/-- R80 format E, R146: nibbles F E F 7 (ESC 127 of W1). -/
theorem test_word_decEscPos : decodeBytes [0b11101111, 0b01111111] = .ok (.decEscPos 0b1111 0b0111, []) := by decide

/-- R87, R145: nibbles F 0 and F F. -/
theorem test_word_decEscBad :
    decodeBytes [0b00001111] = .ok (.decEscBad 0b0000, []) ∧
    decodeBytes [0b11111111] = .ok (.decEscBad 0b1111, []) := by decide

/-- R141: a marker or an escape cut short is no word. -/
theorem test_word_truncated :
    decodeNibbles [0xE] = .error .truncated ∧ decodeNibbles [0xF, 0xD, 0x4] = .error .truncated ∧
    decodeNibbles [] = .error .empty := by decide

/-- R102 to R104, W1: the emissions of d = 6, -19, 20, and of words the encoder never emits (R86). -/
theorem test_word_emissions :
    decode (.emission [0xC]) = .ok (.encShort 0xC) ∧
    decode (.emission [0xD, 0xD]) = .ok (.encMid .neg 0xD) ∧
    decode (.emission [0xF, 0xE, 0x4, 0x1]) = .ok (.encEsc .pos 0x4 0x1) ∧
    decode (.emission [0xD, 0x0]) = .error .neverEmitted ∧
    decode (.emission [0xF, 0xD, 0x3, 0x1]) = .error .neverEmitted := by decide

/-- R90, K6 to K8: OP = CMD[1:0], bits 31:2 ignored. -/
theorem test_word_commands :
    decode (.command 0x00000004) = .ok .nop ∧ decode (.command 0xFFFFFFFD) = .ok .startEncode ∧
    decode (.command 2) = .ok .startDecode ∧ decode (.command 0xFFFFFFFF) = .ok .reserved := by decide

/-- The table has 31 rows of direction `decode`. -/
theorem test_decode_rows : decodeRows.length = 31 := by decide

/-- W1: Classify at the boundaries of the table. -/
theorem test_classify :
    ([0, -6, 6, -7, 7, -19, 19, -20, 20, -255, 255].map fun d => wordNibbles (classify d)) =
      [[6], [0], [0xC], [0xD, 1], [0xE, 1], [0xD, 0xD], [0xE, 0xD], [0xF, 0xD, 4, 1], [0xF, 0xE, 4, 1],
        [0xF, 0xD, 0xF, 0xF], [0xF, 0xE, 0xF, 0xF]] := by decide

/-- Vector N: the nibble unpacker on `56 45 D2`. -/
theorem test_nibbleAt :
    ((List.range 6).map fun k => nibbleAt (started .decRun [0x56, 0x45, 0xD2] 3 1) k) =
      [some 6, some 5, some 5, some 4, some 2, some 0xD] := by decide +kernel

/-! ## One step of each instruction -/

/-- D4: byte 01, SHORT -5 gives the sample 05. -/
theorem test_decShort :
    after (step (started .decRun [0x01] 1 1)) (fun t => t.prev = 5 ∧ t.ncur = 1 ∧ t.scur = 1 ∧
      Memory.read t.mem 0x2000 = 5) = true := by decide +kernel

/-- D6: byte 07, SHORT +1 at prev 0 is RANGE, STATUS 0x46. -/
theorem test_decShort_range :
    after (step (started .decRun [0x07] 1 1)) (fun t => statusWord t = 0x46 ∧ t.outLen = 0 ∧
      Memory.read t.mem 0x2000 = 0xAA) = true := by decide +kernel

/-- D18: byte FD, MID with m = F, d = -21. -/
theorem test_decMidNeg :
    after (step (started .decRun [0xFD] 1 1)) (fun t => t.prev = 0x15 ∧ t.ncur = 2 ∧
      Memory.read t.mem 0x2000 = 0x15) = true := by decide +kernel

/-- D8: byte DF, F D with no nibbles 2 and 3 is TRUNCATED, STATUS 0x36. -/
theorem test_decEscNeg_truncated :
    after (step (started .decRun [0xDF] 1 3)) (fun t => statusWord t = 0x36 ∧ t.consumed = 0) = true := by
  decide +kernel

/-- D20: byte 0E, MID +6 at prev 0 is RANGE. -/
theorem test_decMidPos_range :
    after (step (started .decRun [0x0E] 1 1)) (fun t => statusWord t = 0x46) = true := by decide +kernel

/-- R143's example: prev = 0x10, nibbles E 2, sample 0x08. -/
theorem test_decMidPos :
    after (step { started .decRun [0x2E] 1 1 with prev := 0x10 }) (fun t => t.prev = 0x08 ∧ t.ncur = 2) = true := by
  decide +kernel

/-- D24: bytes DF FF, ESC -255. -/
theorem test_decEscNeg :
    after (step (started .decRun [0xDF, 0xFF] 2 1)) (fun t => t.prev = 0xFF ∧ t.ncur = 4) = true := by decide +kernel

/-- D11: byte 0F is BAD_ESCAPE, STATUS 0x26, before any test at n3. -/
theorem test_decEscBad :
    after (step (started .decRun [0x0F] 1 3)) (fun t => statusWord t = 0x26 ∧ t.outLen = 0 ∧ t.consumed = 0) = true := by
  decide +kernel

/-- R146's example: prev = 0xFF, nibbles F E F 7, sample 0x80. -/
theorem test_decEscPos :
    after (step { started .decRun [0xEF, 0x7F] 2 1 with prev := 0xFF }) (fun t => t.prev = 0x80 ∧ t.ncur = 4) = true := by
  decide +kernel

/-- E4: sample 00 holds nibble 6; nothing is written yet. -/
theorem test_encShort :
    after (step (started .encRun [0x00] 1 1)) (fun t => t.hold = 6 ∧ t.ncur = 1 ∧ t.scur = 1 ∧
      Memory.read t.mem 0x2000 = 0xAA) = true := by decide +kernel

/-- E8: sample 07, d = -7, byte 1D. -/
theorem test_encMid :
    after (step (started .encRun [0x07] 1 1)) (fun t => Memory.read t.mem 0x2000 = 0x1D ∧ t.prev = 7) = true := by
  decide +kernel

/-- E18: sample FF at an odd cursor, with nibble 6 held, gives F6 FD and holds F. -/
theorem test_encEsc_odd :
    after (step { encE18 with ncur := 1, scur := 1, hold := 6 }) (fun t => Memory.read t.mem 0x2000 = 0xF6 ∧
      Memory.read t.mem 0x2001 = 0xFD ∧ t.hold = 0xF ∧ t.ncur = 5) = true := by decide +kernel

/-- E17: the escape does not fit in C = 2 and the held nibble is flushed: 06, STATUS 0x16. -/
theorem test_encEsc_overflow :
    after (step { started .encRun [0x00, 0xFF] 2 2 with ncur := 1, scur := 1, hold := 6 })
      (fun t => statusWord t = 0x16 ∧ t.outLen = 1 ∧ t.consumed = 1 ∧ t.last = 0 ∧ Memory.read t.mem 0x2000 = 0x06 ∧
        Memory.read t.mem 0x2001 = 0xAA) = true := by decide +kernel

/-- K8, K14: NOP leaves STATUS 0x56 as it was. -/
theorem test_nop :
    after (step { State.reset.rejectCommand with script := [.regWrite 0 32 4] }) (fun t => statusWord t = 0x56) = true := by
  decide +kernel

/-- R171: the start of ENCODE shows BUSY alone. -/
theorem test_startEncode :
    after (step { State.reset with script := [.regWrite 0 32 1], last := 7 }) (fun t => statusWord t = 1 ∧
      t.fsm = .encRun ∧ t.last = 7) = true := by decide +kernel

/-- R69 (b): an in-place ENCODE is refused. -/
theorem test_startEncode_overlap :
    refuses (step { State.reset with srcLen := 1, dstCap := 1, script := [.regWrite 0 32 1] }) .buffersOverlap = true := by
  decide +kernel

/-- R172, R232: the start of DECODE clears what an earlier command left. -/
theorem test_startDecode :
    after (step { State.reset.rejectCommand with script := [.regWrite 0 32 2], prev := 9, ncur := 3, scur := 2 })
      (fun t => statusWord t = 1 ∧ t.fsm = .decRun ∧ t.prev = 0 ∧ t.ncur = 0 ∧ t.scur = 0) = true := by decide +kernel

/-- K5, K6: OP = 3 gives STATUS 0x56. -/
theorem test_reserved :
    after (step { State.reset with outLen := 21, script := [.regWrite 0 32 0xFFFFFFFF] })
      (fun t => statusWord t = 0x56 ∧ t.outLen = 21) = true := by decide +kernel

/-! ## The register block, memory, reset -/

/-- K9: writes while BUSY are ignored. -/
theorem test_write_busy :
    after (step { encE18 with script := [.regWrite 0x14 32 1] }) (fun t => t.dstCap = 3 ∧ t.fsm = .encRun) = true := by
  decide +kernel

/-- K11, K12: a read-only register ignores a write; SRC_ADDR keeps ADDR_W bits. -/
theorem test_write_registers :
    after (step { State.reset with script := [.regWrite 0x18 32 7] }) (fun t => t.outLen = 0) = true ∧
    after (step { State.reset with script := [.regWrite 0x08 32 0x12345678] }) (fun t => t.srcAddr = 0x12345678) = true ∧
    after (step { State.resetWith 8 0 with script := [.regWrite 0x08 32 0x12345678] }) (fun t => t.srcAddr = 0x78) = true := by
  decide +kernel

/-- R32: other widths and alignments are refused. -/
theorem test_bad_access :
    refuses (step { State.reset with script := [.regRead 0x04 8] }) .badRegisterAccess = true ∧
    refuses (step { State.reset with script := [.regRead 0x06 32] }) .badRegisterAccess = true ∧
    refuses (step { State.reset with script := [.regWrite 0x40 32 0] }) .badRegisterAccess = true := by decide +kernel

/-- R60: memory ends at 2^ADDR_W. -/
theorem test_memory_end :
    faults (step { State.resetWith 8 0x80 with script := [.memWrite 0x100 1] }) .noSuchAddress = true ∧
    after (step { State.resetWith 8 0x80 with script := [.memWrite 0xFF 1] }) (fun t => t.mem = [(0xFF, 1)]) = true := by
  decide +kernel

/-- The canonical form: the value an unlisted byte reads as leaves no entry. -/
theorem test_memory_canonical :
    Memory.write (Memory.write (Memory.write [] 9 1) 4 2) 9 0xAA = [(4, 2)] := by decide

/-- K13: reset while BUSY. -/
theorem test_reset_busy :
    after (step { encE18 with script := [.reset] }) (fun t => statusWord t = 0 ∧ t.dstCap = 0 ∧ t.launch = none) = true := by
  decide +kernel

/-- The decoder reads a table word, and the next step after it is placed runs it. -/
theorem test_withFetchWord :
    decodeTableWord 16 0x00DF = some (.decEscNeg 0 0) ∧ decodeTableWord 8 0x08 = some (.decShort 8) ∧
    decodeTableWord 32 3 = some .reserved ∧
    after (step (State.reset.withFetchWord 8 0xDF)) (fun t => t.scur = 1 ∧ t.ncur = 4) = true ∧
    after (step (State.reset.withFetchWord 32 3)) (fun t => statusWord t = 0x56) = true := by decide +kernel

/-! ## States that meet the invariant -/

/-- DECODE of E18's output `F6 FD 0F` with M = 2. -/
def decE18 : State := started .decRun [0xF6, 0xFD, 0x0F] 3 2

/-- ENCODE of `00 FF` into two bytes (vector E17). -/
def encE17 : State := started .encRun [0x00, 0xFF] 2 2

/-- ENCODE of `FF 00 FF 00` into 2N = 8 bytes (W4). -/
def encW4 : State := started .encRun [0xFF, 0x00, 0xFF, 0x00] 4 8

/-- E18's output with M = 1. -/
def decE18M1 : State := started .decRun [0xF6, 0xFD, 0x0F] 3 1

/-- ENCODE of `F9 F9`, whose five nibbles are `F D 9 F 6` (R104, R102): LAST = 249. DECODE of its packed bytes with
M = 3. -/
def encF9 : State := started .encRun [0xF9, 0xF9] 2 3

def decF9 : State := started .decRun [0xDF, 0xF9, 0x06] 3 3

/-- The same for `FA FA`: LAST = 250. -/
def encFA : State := started .encRun [0xFA, 0xFA] 2 3

def decFA : State := started .decRun [0xDF, 0xFA, 0x06] 3 3

/-- A command just started on memory in order, with operands that meet R69, meets the invariant. -/
theorem inv_started {f : Fsm} {input : List Byte} {len cap : Word}
    (hm : Memory.wf (bytes 0x1000 input) ∧ ∀ c ∈ bytes 0x1000 input, c.1 < 2 ^ 32)
    (hr : startRefusal (started f input len cap) = none) : Inv (started f input len cap) where
  addrW_range := show 1 ≤ 32 ∧ 32 ≤ 32 by decide
  mem_ok := hm
  addr_bits := show 0x1000 < 2 ^ 32 ∧ 0x2000 < 2 ^ 32 by decide
  busy_status := fun _ => ⟨rfl, rfl⟩
  error_done := fun h => absurd rfl h
  busy_buffers := fun _ => hr
  busy_launch := fun _ => ⟨_, rfl, rfl, rfl, rfl, rfl, hm⟩
  enc_cursors := fun _ => ⟨Nat.zero_le _, Nat.zero_le _⟩
  dec_cursors := fun _ => ⟨Nat.zero_le _, Nat.zero_le _⟩

theorem inv_encE18 : Inv encE18 := inv_started (by decide +kernel) (by decide +kernel)

theorem inv_encE17 : Inv encE17 := inv_started (by decide +kernel) (by decide +kernel)

theorem inv_encW4 : Inv encW4 := inv_started (by decide +kernel) (by decide +kernel)

theorem inv_decE18 : Inv decE18 := inv_started (by decide +kernel) (by decide +kernel)

theorem inv_decE18M1 : Inv decE18M1 := inv_started (by decide +kernel) (by decide +kernel)

theorem inv_encF9 : Inv encF9 := inv_started (by decide +kernel) (by decide +kernel)

theorem inv_decF9 : Inv decF9 := inv_started (by decide +kernel) (by decide +kernel)

theorem inv_encFA : Inv encFA := inv_started (by decide +kernel) (by decide +kernel)

theorem inv_decFA : Inv decFA := inv_started (by decide +kernel) (by decide +kernel)

/-! ## Witnesses: for each statement with hypotheses, a state and operands that meet them -/

theorem witness_DecodeEncode :
    wellFormed (.decShort 0xC) = true ∧ wellFormed (.decEscBad 0xF) = true ∧ wellFormed (.encMid .neg 0xD) = true ∧
    wellFormed (.encEsc .pos 0x4 0x1) = true ∧ wellFormed .reserved = true := by decide

theorem witness_ParseUnique :
    0 < inspectedNibbles (.decEscNeg 4 1) ∧ wellFormed (.decEscNeg 4 1) = true ∧
    ([0xF, 0xD, 4, 1, 6] : List Nibble) = wordNibbles (.decEscNeg 4 1) ++ [6] := by decide

theorem witness_CodeWordInverse : ∃ d : Int, -255 ≤ d ∧ d ≤ 255 ∧ classify d = .encEsc .neg 0xF 0xF :=
  ⟨-255, by decide, by decide, by decide⟩

theorem witness_StepRunsInstruction_idle : engineTurn State.reset State.reset ∧ State.reset.fsm = .idle :=
  ⟨.inl ⟨rfl, rfl⟩, rfl⟩

/-- A scripted engine move, and a POLL while BUSY. -/
theorem witness_StepRunsInstruction_engine :
    engineTurn (encE18.setScript [.engine, .regRead 4 32]) (encE18.setScript [.regRead 4 32]) :=
  .inr (.inl ⟨_, rfl, rfl⟩)

theorem witness_StepRunsInstruction_poll : engineTurn (decD30.setScript [.poll]) (decD30.setScript [.poll]) :=
  .inr (.inr ⟨_, rfl, by decide +kernel, rfl⟩)

theorem witness_StepRunsInstruction_decode :
    engineTurn decD30 decD30 ∧ decD30.fsm = .decRun ∧ decD30.scur ≠ decD30.dstCap ∧
    decD30.ncur.toNat < 2 * decD30.srcLen.toNat ∧ inspectWord decD30 = some [0xF, 0xD, 0x6, 0x4] :=
  ⟨.inl ⟨rfl, rfl⟩, by decide +kernel⟩

theorem witness_StepRunsInstruction_encode :
    engineTurn encE18 encE18 ∧ encE18.fsm = .encRun ∧ encE18.scur ≠ encE18.srcLen ∧
    encE18.srcAddr.toNat + encE18.scur.toNat < 2 ^ encE18.addrW := ⟨.inl ⟨rfl, rfl⟩, by decide +kernel⟩

theorem witness_StepRunsInstruction_command :
    (State.reset.setScript [.regWrite 0 32 2]).script = .regWrite 0 32 2 :: [] := rfl

/-- The last nibble of the stream, an escape marker alone. -/
theorem witness_InspectsOnlyTheWord :
    ∃ s : State, s.ncur.toNat < 2 * s.srcLen.toNat ∧ inspectWord s = some [0xF] :=
  ⟨{ started .decRun [0xF6] 1 2 with ncur := 1 }, by decide +kernel⟩

theorem witness_InspectsOnlyTheWord_whole :
    decD30.ncur.toNat < 2 * decD30.srcLen.toNat ∧ inspectWord decD30 = some [0xF, 0xD, 0x6, 0x4] ∧
    decD30.ncur.toNat + inspectedNibbles (decodeWindow (windowOf [0xF, 0xD, 0x6, 0x4])) ≤ 2 * decD30.srcLen.toNat := by
  decide +kernel

theorem witness_NopDoesNothing :
    (encE18.setScript [.regWrite 0 32 ((1 : BitVec 30) ++ (0 : BitVec 2))]).script =
      .regWrite 0 32 ((1 : BitVec 30) ++ (0 : BitVec 2)) :: [] := rfl

theorem witness_ReservedRejected : State.reset.fsm = .idle ∧ encE18.fsm ≠ .idle := by decide +kernel

theorem witness_ReservedRejected_write :
    (State.reset.setScript [.regWrite 0 32 ((0x3FFFFFFF : BitVec 30) ++ (3 : BitVec 2))]).script =
      .regWrite 0 32 ((0x3FFFFFFF : BitVec 30) ++ (3 : BitVec 2)) :: [] := rfl

/-- Two buffers that touch, the second ending where the register window begins. -/
theorem witness_StartCompletes :
    ∃ s : State, s.fsm = .idle ∧
      s.srcAddr.toNat + s.srcLen.toNat ≤ 2 ^ s.addrW ∧ s.dstAddr.toNat + s.dstCap.toNat ≤ 2 ^ s.addrW ∧
      (s.srcLen = 0 ∨ s.dstCap = 0 ∨ s.srcAddr.toNat + s.srcLen.toNat ≤ s.dstAddr.toNat ∨
        s.dstAddr.toNat + s.dstCap.toNat ≤ s.srcAddr.toNat) ∧
      (s.srcLen = 0 ∨ s.srcAddr.toNat + s.srcLen.toNat ≤ s.regBase ∨ s.regBase + 0x40 ≤ s.srcAddr.toNat) ∧
      (s.dstCap = 0 ∨ s.dstAddr.toNat + s.dstCap.toNat ≤ s.regBase ∨ s.regBase + 0x40 ≤ s.dstAddr.toNat) ∧
      s.srcLen ≠ 0 ∧ s.dstCap ≠ 0 :=
  ⟨{ State.reset with srcAddr := 0xFFFFFFA0, srcLen := 0x10, dstAddr := 0xFFFFFFB0, dstCap := 0x10 }, by
    decide +kernel⟩

theorem witness_StartRefused_wraps :
    ∃ s : State, s.fsm = .idle ∧ 2 ^ s.addrW < s.srcAddr.toNat + s.srcLen.toNat :=
  ⟨{ State.reset with srcAddr := 0xFFFFFFFF, srcLen := 2 }, by decide +kernel⟩

theorem witness_StartRefused_overlap :
    ∃ s : State, s.fsm = .idle ∧
      ¬(2 ^ s.addrW < s.srcAddr.toNat + s.srcLen.toNat ∨ 2 ^ s.addrW < s.dstAddr.toNat + s.dstCap.toNat) ∧
      (0 < s.srcLen.toNat ∧ 0 < s.dstCap.toNat ∧ s.dstAddr.toNat < s.srcAddr.toNat + s.srcLen.toNat ∧
        s.srcAddr.toNat < s.dstAddr.toNat + s.dstCap.toNat) :=
  ⟨{ State.reset with srcLen := 2, dstAddr := 1, dstCap := 1 }, by decide +kernel⟩

theorem witness_StartRefused_window :
    ∃ s : State, s.fsm = .idle ∧
      ¬(2 ^ s.addrW < s.srcAddr.toNat + s.srcLen.toNat ∨ 2 ^ s.addrW < s.dstAddr.toNat + s.dstCap.toNat) ∧
      ¬(0 < s.srcLen.toNat ∧ 0 < s.dstCap.toNat ∧ s.dstAddr.toNat < s.srcAddr.toNat + s.srcLen.toNat ∧
        s.srcAddr.toNat < s.dstAddr.toNat + s.dstCap.toNat) ∧
      (0 < s.dstCap.toNat ∧ s.regBase < s.dstAddr.toNat + s.dstCap.toNat ∧ s.dstAddr.toNat < s.regBase + 0x40) :=
  ⟨{ State.reset with dstAddr := 0xFFFFFFBF, dstCap := 2 }, by decide +kernel⟩

theorem witness_CommandFrame : ∃ t, exec .startDecode State.reset = .next t :=
  next_of_after (p := fun _ => true) (by decide +kernel)

/-- v = 255: prev 0xF9 and SHORT -6. -/
theorem witness_DecShortCompletes :
    ∃ (s : State) (n0 : Nibble), s.fsm = .decRun ∧ s.scur ≠ s.dstCap ∧ s.ncur.toNat + 1 ≤ 2 * s.srcLen.toNat ∧
      s.dstAddr.toNat + s.scur.toNat < 2 ^ s.addrW ∧ n0.toNat ≤ s.prev.toNat + 6 ∧
      s.prev.toNat + 6 ≤ 255 + n0.toNat :=
  ⟨{ decD30 with prev := 0xF9 }, 0, by decide +kernel⟩

theorem witness_DecMidNegCompletes :
    ∃ (s : State) (m : Nibble), s.fsm = .decRun ∧ s.scur ≠ s.dstCap ∧ s.ncur.toNat + 2 ≤ 2 * s.srcLen.toNat ∧
      s.dstAddr.toNat + s.scur.toNat < 2 ^ s.addrW ∧ s.prev.toNat + (m.toNat + 6) ≤ 255 :=
  ⟨{ decD30 with ncur := 4, prev := 234 }, 0xF, by decide +kernel⟩

theorem witness_DecMidPosCompletes :
    ∃ (s : State) (m : Nibble), s.fsm = .decRun ∧ s.scur ≠ s.dstCap ∧ s.ncur.toNat + 2 ≤ 2 * s.srcLen.toNat ∧
      s.dstAddr.toNat + s.scur.toNat < 2 ^ s.addrW ∧ m.toNat + 6 ≤ s.prev.toNat :=
  ⟨{ decD30 with ncur := 4, prev := 6 }, 0, by decide +kernel⟩

theorem witness_DecEscNegCompletes :
    ∃ (s : State) (lo hi : Nibble), s.fsm = .decRun ∧ s.scur ≠ s.dstCap ∧
      s.ncur.toNat + 4 ≤ 2 * s.srcLen.toNat ∧ s.dstAddr.toNat + s.scur.toNat < 2 ^ s.addrW ∧
      s.prev.toNat + (lo.toNat + 16 * hi.toNat) ≤ 255 :=
  ⟨decD30, 0xF, 0xF, by decide +kernel⟩

theorem witness_DecEscPosCompletes :
    ∃ (s : State) (lo hi : Nibble), s.fsm = .decRun ∧ s.scur ≠ s.dstCap ∧
      s.ncur.toNat + 4 ≤ 2 * s.srcLen.toNat ∧ s.dstAddr.toNat + s.scur.toNat < 2 ^ s.addrW ∧
      lo.toNat + 16 * hi.toNat ≤ s.prev.toNat :=
  ⟨{ decD30 with prev := 0xFF }, 0xF, 0xF, by decide +kernel⟩

theorem witness_DecEscBadCompletes :
    decD30.fsm = .decRun ∧ decD30.scur ≠ decD30.dstCap ∧ decD30.ncur.toNat + 2 ≤ 2 * decD30.srcLen.toNat := by
  decide +kernel

theorem witness_TruncatedEndsDecode :
    ∃ (s : State), s.fsm = .decRun ∧ s.scur ≠ s.dstCap ∧ s.ncur.toNat < 2 * s.srcLen.toNat ∧
      2 * s.srcLen.toNat < s.ncur.toNat + inspectedNibbles (.decMidNeg 0) :=
  ⟨{ decD30 with ncur := 5 }, by decide +kernel⟩

/-- v = -1 and v = 256. -/
theorem witness_RangeEndsDecode :
    ∃ (s : State), s.fsm = .decRun ∧ s.scur ≠ s.dstCap ∧
      s.ncur.toNat + inspectedNibbles (.decShort 7) ≤ 2 * s.srcLen.toNat ∧ wordDelta (.decShort 7) = some 1 ∧
      ((s.prev.toNat : Int) - 1 < 0 ∨ 255 < (s.prev.toNat : Int) - 1) :=
  ⟨decD30, by decide +kernel⟩

theorem witness_RangeEndsDecode_above :
    ∃ (s : State), s.fsm = .decRun ∧ s.scur ≠ s.dstCap ∧
      s.ncur.toNat + inspectedNibbles (.decShort 5) ≤ 2 * s.srcLen.toNat ∧ wordDelta (.decShort 5) = some (-1) ∧
      ((s.prev.toNat : Int) - (-1) < 0 ∨ 255 < (s.prev.toNat : Int) - (-1)) :=
  ⟨{ decD30 with prev := 255 }, by decide +kernel⟩

theorem witness_DecodeEndsWithNone_count :
    ∃ s u : State, engineTurn s u ∧ u.fsm = .decRun ∧ u.scur = u.dstCap :=
  ⟨{ decD30 with scur := 2 }, _, .inl ⟨rfl, rfl⟩, by decide +kernel⟩

theorem witness_DecodeEndsWithNone_exhausted :
    ∃ s u : State, engineTurn s u ∧ u.fsm = .decRun ∧ u.scur ≠ u.dstCap ∧ 2 * u.srcLen.toNat ≤ u.ncur.toNat :=
  ⟨{ decD30 with ncur := 6 }, _, .inl ⟨rfl, rfl⟩, by decide +kernel⟩

theorem witness_DecoderFrame_goes_on :
    0 < inspectedNibbles (.decEscNeg 6 4) ∧ ∃ t, exec (.decEscNeg 6 4) decD30 = .next t ∧ t.fsm = .decRun :=
  ⟨by decide, _, rfl, by decide +kernel⟩

theorem witness_DecoderFrame_ends :
    0 < inspectedNibbles (.decEscBad 0) ∧ ∃ t, exec (.decEscBad 0) decD30 = .next t ∧ t.fsm = .idle :=
  ⟨by decide, _, rfl, by decide +kernel⟩

/-- The hypotheses of the encoder's completion statements, at an even and at an odd cursor, with the last byte of the
capacity. -/
theorem witness_EncShortCompletes :
    ∃ s : State, s.fsm = .encRun ∧ s.scur ≠ s.srcLen ∧ s.srcAddr.toNat + s.scur.toNat < 2 ^ s.addrW ∧
      s.ncur.toNat + 1 ≤ 2 * s.dstCap.toNat ∧ s.dstAddr.toNat + s.dstCap.toNat ≤ 2 ^ s.addrW ∧
      s.ncur.toNat % 2 = 0 :=
  ⟨{ encE18 with ncur := 4 }, by decide +kernel⟩

theorem witness_EncShortCompletes_odd :
    ∃ s : State, s.fsm = .encRun ∧ s.scur ≠ s.srcLen ∧ s.srcAddr.toNat + s.scur.toNat < 2 ^ s.addrW ∧
      s.ncur.toNat + 1 ≤ 2 * s.dstCap.toNat ∧ s.dstAddr.toNat + s.dstCap.toNat ≤ 2 ^ s.addrW ∧
      s.ncur.toNat % 2 = 1 :=
  ⟨{ encE18 with ncur := 5 }, by decide +kernel⟩

theorem witness_EncMidCompletes :
    ∃ s : State, s.fsm = .encRun ∧ s.scur ≠ s.srcLen ∧ s.srcAddr.toNat + s.scur.toNat < 2 ^ s.addrW ∧
      s.ncur.toNat + 2 ≤ 2 * s.dstCap.toNat ∧ s.dstAddr.toNat + s.dstCap.toNat ≤ 2 ^ s.addrW ∧
      s.ncur.toNat % 2 = 0 :=
  ⟨{ encE18 with ncur := 4 }, by decide +kernel⟩

theorem witness_EncMidCompletes_odd :
    ∃ s : State, s.fsm = .encRun ∧ s.scur ≠ s.srcLen ∧ s.srcAddr.toNat + s.scur.toNat < 2 ^ s.addrW ∧
      s.ncur.toNat + 2 ≤ 2 * s.dstCap.toNat ∧ s.dstAddr.toNat + s.dstCap.toNat ≤ 2 ^ s.addrW ∧
      s.ncur.toNat % 2 = 1 :=
  ⟨{ encE18 with ncur := 3 }, by decide +kernel⟩

theorem witness_EncEscCompletes :
    ∃ s : State, s.fsm = .encRun ∧ s.scur ≠ s.srcLen ∧ s.srcAddr.toNat + s.scur.toNat < 2 ^ s.addrW ∧
      s.ncur.toNat + 4 ≤ 2 * s.dstCap.toNat ∧ s.dstAddr.toNat + s.dstCap.toNat ≤ 2 ^ s.addrW ∧
      s.ncur.toNat % 2 = 0 :=
  ⟨{ encE18 with ncur := 2 }, by decide +kernel⟩

theorem witness_EncEscCompletes_odd :
    ∃ s : State, s.fsm = .encRun ∧ s.scur ≠ s.srcLen ∧ s.srcAddr.toNat + s.scur.toNat < 2 ^ s.addrW ∧
      s.ncur.toNat + 4 ≤ 2 * s.dstCap.toNat ∧ s.dstAddr.toNat + s.dstCap.toNat ≤ 2 ^ s.addrW ∧
      s.ncur.toNat % 2 = 1 :=
  ⟨{ encE18 with ncur := 1 }, by decide +kernel⟩

/-- T = 2C + 1, at an even and at an odd cursor. -/
theorem witness_OverflowEndsEncode :
    ∃ s : State, s.fsm = .encRun ∧ s.scur ≠ s.srcLen ∧ s.srcAddr.toNat + s.scur.toNat < 2 ^ s.addrW ∧
      2 * s.dstCap.toNat < s.ncur.toNat + (wordNibbles (.encShort 6)).length ∧ s.ncur.toNat % 2 = 0 :=
  ⟨{ encE18 with ncur := 6 }, by decide +kernel⟩

theorem witness_OverflowEndsEncode_odd :
    ∃ s : State, s.fsm = .encRun ∧ s.scur ≠ s.srcLen ∧ s.srcAddr.toNat + s.scur.toNat < 2 ^ s.addrW ∧
      2 * s.dstCap.toNat < s.ncur.toNat + (wordNibbles (.encEsc .neg 0xF 0xF)).length ∧ s.ncur.toNat % 2 = 1 ∧
      s.dstAddr.toNat + s.ncur.toNat / 2 < 2 ^ s.addrW :=
  ⟨{ encE18 with ncur := 3 }, by decide +kernel⟩

theorem witness_EncodeEndsWithNone :
    ∃ s u : State, engineTurn s u ∧ u.fsm = .encRun ∧ u.scur = u.srcLen ∧ u.ncur.toNat % 2 = 0 :=
  ⟨{ encE18 with scur := 2, ncur := 2 }, _, .inl ⟨rfl, rfl⟩, by decide +kernel⟩

theorem witness_EncodeEndsWithNone_odd :
    ∃ s u : State, engineTurn s u ∧ u.fsm = .encRun ∧ u.scur = u.srcLen ∧ u.ncur.toNat % 2 = 1 ∧
      u.dstAddr.toNat + u.ncur.toNat / 2 < 2 ^ u.addrW :=
  ⟨{ encE18 with scur := 2, ncur := 5 }, _, .inl ⟨rfl, rfl⟩, by decide +kernel⟩

theorem witness_EncoderFrame_goes_on :
    ∃ t, exec (.encShort 6) encE18 = .next t ∧ t.fsm = .encRun := ⟨_, rfl, by decide +kernel⟩

theorem witness_EncoderFrame_ends :
    ∃ t, exec (.encEsc .neg 0xF 0xF) { encE17 with ncur := 1, scur := 1 } = .next t ∧ t.fsm = .idle :=
  ⟨_, rfl, by decide +kernel⟩

theorem witness_RegisterReadIdle :
    ∃ s : State, s.script = .regRead 0x3C 32 :: [] ∧ s.fsm = .idle ∧ 0x3C % 4 = 0 ∧ 0x3C ≤ 0x3C :=
  ⟨{ State.reset with script := [.regRead 0x3C 32] }, by decide +kernel⟩

theorem witness_RegisterReadBusy :
    ∃ s : State, s.script = .regRead 0x18 32 :: [] ∧ s.fsm ≠ .idle ∧ 0x18 % 4 = 0 ∧ 0x18 ≤ 0x3C :=
  ⟨{ encE18 with script := [.regRead 0x18 32] }, by decide +kernel⟩

theorem witness_RegisterReadBusy_exact :
    ∃ s : State, s.script = .regRead 0x14 32 :: [] ∧ s.fsm ≠ .idle ∧
      ¬(0x14 = 0x18 ∨ 0x14 = 0x1C ∨ 0x14 = 0x20 ∨ 0x14 = 0x24) :=
  ⟨{ encE18 with script := [.regRead 0x14 32] }, by decide +kernel⟩

theorem witness_RegisterWriteIdle :
    ∃ s : State, s.script = .regWrite 0x14 32 5 :: [] ∧ s.fsm = .idle ∧ 0x14 % 4 = 0 ∧ 0 < 0x14 ∧ 0x14 ≤ 0x3C :=
  ⟨{ State.reset with script := [.regWrite 0x14 32 5] }, by decide +kernel⟩

theorem witness_RegisterWriteBusy :
    ∃ s : State, s.script = .regWrite 0 32 2 :: [] ∧ s.fsm ≠ .idle ∧ 0 % 4 = 0 ∧ 0 ≤ 0x3C :=
  ⟨{ encE18 with script := [.regWrite 0 32 2] }, by decide +kernel⟩

theorem witness_BadAccessRefused :
    ∃ s : State, s.script = .regRead 0x40 32 :: [] ∧ (32 ≠ 32 ∨ 0x40 % 4 ≠ 0 ∨ 0x3C < 0x40) :=
  ⟨{ State.reset with script := [.regRead 0x40 32] }, by decide +kernel⟩

theorem witness_PollWaits : ∃ s : State, s.script = .poll :: [] ∧ s.fsm ≠ .idle :=
  ⟨{ encE18 with script := [.poll] }, by decide +kernel⟩

theorem witness_PollWaits_idle : ∃ s : State, s.script = .poll :: [] ∧ s.fsm = .idle :=
  ⟨{ State.reset with script := [.poll] }, by decide +kernel⟩

/-- The byte right after the output buffer, while ENCODE runs. -/
theorem witness_HostMemory :
    ∃ s : State, s.script = .memWrite 0x2003 7 :: .memRead 0x2003 :: [] ∧ 0x2003 < 2 ^ s.addrW ∧
      inWindow s 0x2003 = false ∧ frozen s 0x2003 = false ∧ inOutput s 0x2003 = false ∧ s.fsm ≠ .idle :=
  ⟨{ encE18 with script := [.memWrite 0x2003 7, .memRead 0x2003] }, by decide +kernel⟩

theorem witness_HostMemory_idle :
    ∃ s : State, s.script = .memWrite 0xFFFFFFBF 7 :: .memRead 0 :: [] ∧ 0xFFFFFFBF < 2 ^ s.addrW ∧
      inWindow s 0xFFFFFFBF = false ∧ inWindow s 0 = false ∧ frozen s 0xFFFFFFBF = false ∧ s.fsm = .idle :=
  ⟨{ State.reset with script := [.memWrite 0xFFFFFFBF 7, .memRead 0] }, by decide +kernel⟩

theorem witness_FrozenWriteRefused :
    ∃ (s : State) (l : Launch), s.script = .memWrite 0x2002 7 :: [] ∧ s.launch = some l ∧
      ((l.src ≤ 0x2002 ∧ 0x2002 < l.src + l.len) ∨ (l.dst ≤ 0x2002 ∧ 0x2002 < l.dst + l.cap)) ∧
      (0x2002 < s.regBase ∨ s.regBase + 0x40 ≤ 0x2002) :=
  ⟨{ encE18 with script := [.memWrite 0x2002 7] }, _, rfl, rfl, by decide +kernel⟩

theorem witness_OutputReadOldOrFinal :
    ∃ (s : State) (l : Launch), s.script = .memRead 0x2002 :: [] ∧ s.launch = some l ∧ s.fsm ≠ .idle ∧
      0x2002 < 2 ^ s.addrW ∧ (0x2002 < s.regBase ∨ s.regBase + 0x40 ≤ 0x2002) ∧ s.dstAddr.toNat ≤ 0x2002 ∧
      0x2002 < s.dstAddr.toNat + s.dstCap.toNat :=
  ⟨{ encE18 with script := [.memRead 0x2002] }, _, rfl, rfl, by decide +kernel⟩

theorem witness_ResetFromAnywhere :
    ∃ (s : State) (l : Launch), s.script = .reset :: [] ∧ s.launch = some l ∧ s.fsm ≠ .idle :=
  ⟨{ encE18 with script := [.reset] }, _, rfl, rfl, by decide +kernel⟩

theorem witness_ResetFromAnywhere_idle : ∃ s : State, s.script = .reset :: [] ∧ s.fsm = .idle :=
  ⟨{ State.reset with script := [.reset] }, by decide +kernel⟩

theorem witness_ResetInv : 1 ≤ 1 ∧ 1 ≤ 32 ∧ 1 ≤ 32 ∧ 32 ≤ 32 := by decide

theorem witness_StepKeepsInv : Inv encE18 ∧ ∃ t, step encE18 = .next t :=
  ⟨inv_encE18, next_of_after (p := fun _ => true) (by decide +kernel)⟩

theorem witness_EngineNeverStops : Inv decE18 ∧ decE18.fsm ≠ .idle := ⟨inv_decE18, by decide +kernel⟩

theorem witness_EngineWritesOnlyOutput : Inv encE18 ∧ ∃ t, engineStep encE18 = .next t :=
  ⟨inv_encE18, next_of_after (p := fun _ => true) (by decide +kernel)⟩

theorem witness_CommandEnds : Inv encE18 ∧ encE18.fsm ≠ .idle := ⟨inv_encE18, by decide +kernel⟩

theorem witness_IdlePersists :
    ∃ s : State, s.fsm = .idle ∧ s.script = .regWrite 0 32 4 :: [] ∧ decodeCommand 4 = .nop ∧ ∃ t, step s = .next t :=
  ⟨{ State.reset with script := [.regWrite 0 32 4] }, by decide +kernel, rfl, by decide,
    next_of_after (p := fun _ => true) (by decide +kernel)⟩

/-- Two machines that differ in what an earlier command left. -/
theorem witness_NoCarryOver :
    ∃ s s' : State, s.fsm = .idle ∧ s'.fsm = .idle ∧ s.addrW = s'.addrW ∧ s.regBase = s'.regBase ∧
      s.srcAddr = s'.srcAddr ∧ s.srcLen = s'.srcLen ∧ s.dstAddr = s'.dstAddr ∧ s.dstCap = s'.dstCap ∧
      s.mem = s'.mem ∧ s.prev ≠ s'.prev ∧ (∃ t, exec .startEncode s = .next t) ∧
      ∃ t', exec .startEncode s' = .next t' :=
  ⟨State.reset, { State.reset with prev := 7, last := 7, done := true }, rfl, rfl, rfl, rfl, rfl, rfl, rfl, rfl, rfl,
    by decide +kernel, next_of_after (p := fun _ => true) (by decide +kernel),
    next_of_after (p := fun _ => true) (by decide +kernel)⟩

theorem witness_EncodeResult_none :
    Inv encE18 ∧ encE18.fsm = .encRun ∧ fresh encE18 ∧ 2 ≤ encE18.srcLen.toNat ∧
    prefixNibbles (bytesAt encE18.mem encE18.srcAddr.toNat encE18.srcLen.toNat) 2 ≤ 2 * encE18.dstCap.toNat ∧
    2 = encE18.srcLen.toNat :=
  ⟨inv_encE18, by decide +kernel, by unfold fresh; decide +kernel, by decide +kernel, by decide +kernel,
    by decide +kernel⟩

theorem witness_EncodeResult_overflow :
    Inv encE17 ∧ encE17.fsm = .encRun ∧ fresh encE17 ∧ 1 ≤ encE17.srcLen.toNat ∧
    prefixNibbles (bytesAt encE17.mem encE17.srcAddr.toNat encE17.srcLen.toNat) 1 ≤ 2 * encE17.dstCap.toNat ∧
    2 * encE17.dstCap.toNat < prefixNibbles (bytesAt encE17.mem encE17.srcAddr.toNat encE17.srcLen.toNat) 2 :=
  ⟨inv_encE17, by decide +kernel, by unfold fresh; decide +kernel, by decide +kernel, by decide +kernel,
    by decide +kernel⟩

/-- C = 2N. -/
theorem witness_ExpansionBound :
    Inv encW4 ∧ encW4.fsm = .encRun ∧ fresh encW4 ∧ 2 * encW4.srcLen.toNat ≤ encW4.dstCap.toNat :=
  ⟨inv_encW4, by decide +kernel, by unfold fresh; decide +kernel, by decide +kernel⟩

/-- E17, C < 2N. -/
theorem witness_ExpansionBound_overflow : Inv encE17 ∧ encE17.fsm = .encRun ∧ fresh encE17 :=
  ⟨inv_encE17, by decide +kernel, by unfold fresh; decide +kernel⟩

theorem witness_EmptyDecode_count :
    ∃ s u : State, engineTurn s u ∧ u.fsm = .decRun ∧ fresh u ∧ u.dstCap = 0 :=
  ⟨started .decRun [0x66] 1 0, _, .inl ⟨rfl, rfl⟩, by unfold fresh; decide +kernel⟩

theorem witness_EmptyDecode_stream :
    ∃ s u : State, engineTurn s u ∧ u.fsm = .decRun ∧ fresh u ∧ u.srcLen = 0 :=
  ⟨started .decRun [] 0 3, _, .inl ⟨rfl, rfl⟩, by unfold fresh; decide +kernel⟩

/-- E18 encodes to `F6 FD 0F`, which the second machine holds. -/
theorem witness_RoundTrip :
    Inv encE18 ∧ encE18.fsm = .encRun ∧ fresh encE18 ∧ (atEnd encE18).errCode = .none ∧
    Inv decE18 ∧ decE18.fsm = .decRun ∧ fresh decE18 ∧ decE18.srcLen = (atEnd encE18).outLen ∧
    decE18.dstCap = encE18.srcLen ∧
    ∀ i < (atEnd encE18).outLen.toNat,
      Memory.read decE18.mem (decE18.srcAddr.toNat + i) = Memory.read (atEnd encE18).mem (encE18.dstAddr.toNat + i) :=
  ⟨inv_encE18, by decide +kernel, by unfold fresh; decide +kernel, by decide +kernel, inv_decE18, by decide +kernel,
    by unfold fresh; decide +kernel, by decide +kernel, by decide +kernel, by decide +kernel⟩

/-- The first sample of E18's stream only. -/
theorem witness_StoppingShort :
    Inv encE18 ∧ (atEnd encE18).errCode = .none ∧ Inv decE18M1 ∧ decE18M1.fsm = .decRun ∧ fresh decE18M1 ∧
    decE18M1.srcLen = (atEnd encE18).outLen ∧ decE18M1.dstCap.toNat ≤ encE18.srcLen.toNat ∧
    ∀ i < (atEnd encE18).outLen.toNat,
      Memory.read decE18M1.mem (decE18M1.srcAddr.toNat + i) =
        Memory.read (atEnd encE18).mem (encE18.dstAddr.toNat + i) :=
  ⟨inv_encE18, by decide +kernel, inv_decE18M1, by decide +kernel, by unfold fresh; decide +kernel, by decide +kernel,
    by decide +kernel, by decide +kernel⟩

/-- The last LAST that gives an extra sample. -/
theorem witness_PadNibbleDecoded_extra :
    Inv encF9 ∧ encF9.fsm = .encRun ∧ fresh encF9 ∧ (atEnd encF9).errCode = .none ∧ Inv decF9 ∧ decF9.fsm = .decRun ∧
    fresh decF9 ∧ decF9.srcLen = (atEnd encF9).outLen ∧ encF9.srcLen.toNat < decF9.dstCap.toNat ∧
    (∀ i < (atEnd encF9).outLen.toNat,
      Memory.read decF9.mem (decF9.srcAddr.toNat + i) = Memory.read (atEnd encF9).mem (encF9.dstAddr.toNat + i)) ∧
    (streamOf 0 (bytesAt encF9.mem encF9.srcAddr.toNat encF9.srcLen.toNat)).length % 2 = 1 ∧ (atEnd encF9).last.toNat = 249 :=
  ⟨inv_encF9, by decide +kernel, by unfold fresh; decide +kernel, by decide +kernel, inv_decF9, by decide +kernel,
    by unfold fresh; decide +kernel, by decide +kernel, by decide +kernel, by decide +kernel, by decide +kernel,
    by decide +kernel⟩

/-- The first LAST that gives RANGE. -/
theorem witness_PadNibbleDecoded_range :
    Inv encFA ∧ encFA.fsm = .encRun ∧ fresh encFA ∧ (atEnd encFA).errCode = .none ∧ Inv decFA ∧ decFA.fsm = .decRun ∧
    fresh decFA ∧ decFA.srcLen = (atEnd encFA).outLen ∧ encFA.srcLen.toNat < decFA.dstCap.toNat ∧
    (∀ i < (atEnd encFA).outLen.toNat,
      Memory.read decFA.mem (decFA.srcAddr.toNat + i) = Memory.read (atEnd encFA).mem (encFA.dstAddr.toNat + i)) ∧
    (streamOf 0 (bytesAt encFA.mem encFA.srcAddr.toNat encFA.srcLen.toNat)).length % 2 = 1 ∧ (atEnd encFA).last.toNat = 250 :=
  ⟨inv_encFA, by decide +kernel, by unfold fresh; decide +kernel, by decide +kernel, inv_decFA, by decide +kernel,
    by unfold fresh; decide +kernel, by decide +kernel, by decide +kernel, by decide +kernel, by decide +kernel,
    by decide +kernel⟩

/-- An input buffer past a memory of 2^1 bytes. -/
theorem witness_StuckAccess_sample :
    ∃ s u : State, engineTurn s u ∧ u.fsm = .encRun ∧ u.scur ≠ u.srcLen ∧
      2 ^ u.addrW ≤ u.srcAddr.toNat + u.scur.toNat :=
  ⟨{ encE18 with addrW := 1 }, _, .inl ⟨rfl, rfl⟩, by decide +kernel⟩

theorem witness_StuckAccess_first :
    ∃ s u : State, engineTurn s u ∧ u.fsm = .decRun ∧ u.scur ≠ u.dstCap ∧ u.ncur.toNat < 2 * u.srcLen.toNat ∧
      2 ^ u.addrW ≤ u.srcAddr.toNat + u.ncur.toNat / 2 :=
  ⟨{ decD30 with addrW := 1 }, _, .inl ⟨rfl, rfl⟩, by decide +kernel⟩

/-- A MID word over the last byte of memory. -/
theorem witness_StuckAccess_second :
    ∃ s u : State, engineTurn s u ∧ u.fsm = .decRun ∧ u.scur ≠ u.dstCap ∧
      0xC < (memNibble u.mem u.srcAddr.toNat u.ncur.toNat).toNat ∧ u.ncur.toNat + 1 < 2 * u.srcLen.toNat ∧
      u.srcAddr.toNat + u.ncur.toNat / 2 < 2 ^ u.addrW ∧ 2 ^ u.addrW ≤ u.srcAddr.toNat + (u.ncur.toNat + 1) / 2 :=
  ⟨{ decD30 with addrW := 1, srcAddr := 1, ncur := 1, mem := [(1, 0xD0)] }, _, .inl ⟨rfl, rfl⟩, by decide +kernel⟩

/-- An escape whose magnitude lies past the last byte of memory. -/
theorem witness_StuckAccess_third :
    ∃ s u : State, engineTurn s u ∧ u.fsm = .decRun ∧ u.scur ≠ u.dstCap ∧
      memNibble u.mem u.srcAddr.toNat u.ncur.toNat = 0xF ∧ memNibble u.mem u.srcAddr.toNat (u.ncur.toNat + 1) = 0xD ∧
      u.ncur.toNat + 3 < 2 * u.srcLen.toNat ∧ u.srcAddr.toNat + (u.ncur.toNat + 1) / 2 < 2 ^ u.addrW ∧
      2 ^ u.addrW ≤ u.srcAddr.toNat + (u.ncur.toNat + 2) / 2 :=
  ⟨{ decD30 with addrW := 1, srcAddr := 1, mem := [(1, 0xDF)] }, _, .inl ⟨rfl, rfl⟩, by decide +kernel⟩

theorem witness_StuckAccess_flush :
    ∃ s u : State, engineTurn s u ∧ u.fsm = .encRun ∧ u.scur = u.srcLen ∧ u.ncur.toNat % 2 = 1 ∧
      2 ^ u.addrW ≤ u.dstAddr.toNat + u.ncur.toNat / 2 :=
  ⟨{ encE18 with scur := 2, ncur := 5, dstAddr := 0xFFFFFFFE }, _, .inl ⟨rfl, rfl⟩, by decide +kernel⟩

theorem witness_StuckAccess_write :
    ∃ s : State, s.fsm = .decRun ∧ s.scur ≠ s.dstCap ∧
      s.ncur.toNat + inspectedNibbles (.decShort 0) ≤ 2 * s.srcLen.toNat ∧ wordDelta (.decShort 0) = some (-6) ∧
      0 ≤ (s.prev.toNat : Int) - -6 ∧ (s.prev.toNat : Int) - -6 ≤ 255 ∧ 2 ^ s.addrW ≤ s.dstAddr.toNat + s.scur.toNat :=
  ⟨{ decD30 with addrW := 1 }, by decide +kernel⟩

/-- The second packed byte of an ENC.ESC at an even cursor, the first being the last byte of memory. -/
theorem witness_StuckAccess_packed :
    ∃ s : State, s.fsm = .encRun ∧ s.scur ≠ s.srcLen ∧ s.srcAddr.toNat + s.scur.toNat < 2 ^ s.addrW ∧
      s.ncur.toNat + (wordNibbles (.encEsc .neg 4 1)).length ≤ 2 * s.dstCap.toNat ∧
      3 < (wordNibbles (.encEsc .neg 4 1)).length ∧ (s.ncur.toNat + 3) % 2 = 1 ∧
      s.dstAddr.toNat + (s.ncur.toNat + 1) / 2 < 2 ^ s.addrW ∧
      2 ^ s.addrW ≤ s.dstAddr.toNat + (s.ncur.toNat + 3) / 2 :=
  ⟨{ encE18 with ncur := 2, dstAddr := 0xFFFFFFFE }, by decide +kernel⟩

theorem witness_StuckAccess_overflow :
    ∃ s : State, s.fsm = .encRun ∧ s.scur ≠ s.srcLen ∧ s.srcAddr.toNat + s.scur.toNat < 2 ^ s.addrW ∧
      2 * s.dstCap.toNat < s.ncur.toNat + (wordNibbles (.encMid .pos 1)).length ∧ s.ncur.toNat % 2 = 1 ∧
      2 ^ s.addrW ≤ s.dstAddr.toNat + s.ncur.toNat / 2 :=
  ⟨{ encE18 with ncur := 5, dstAddr := 0xFFFFFFFE }, by decide +kernel⟩

theorem witness_CodeWordNeedsItsCommand :
    0 < inspectedNibbles (.decShort 0) ∧ encE18.fsm ≠ .decRun ∧ State.reset.fsm ≠ .encRun := by decide +kernel

theorem witness_BadMemoryAccess_window :
    ∃ s : State, s.script = .memRead 0xFFFFFFFF :: [] ∧ s.regBase ≤ 0xFFFFFFFF ∧ 0xFFFFFFFF < s.regBase + 0x40 :=
  ⟨{ State.reset with script := [.memRead 0xFFFFFFFF] }, by decide +kernel⟩

theorem witness_BadMemoryAccess_absent :
    ∃ s : State, s.script = .memWrite 0x100000000 0 :: [] ∧ s.regBase + 0x40 ≤ 0x100000000 ∧
      frozen s 0x100000000 = false ∧ 2 ^ s.addrW ≤ 0x100000000 :=
  ⟨{ State.reset with script := [.memWrite 0x100000000 0] }, by decide +kernel⟩

/-- The first word of `6 F D F F 0` with M = 1, the rest of the stream unread. -/
theorem witness_DecodeResult :
    Inv decE18M1 ∧ decE18M1.fsm = .decRun ∧ fresh decE18M1 ∧ (∀ i ∈ [Instr.decShort 6], wellFormed i = true) ∧
    samplesOf 0 [.decShort 6] = some [0x00] ∧
    ([Instr.decShort 6].flatMap wordNibbles).length ≤ 2 * decE18M1.srcLen.toNat ∧
    (∀ k < ([Instr.decShort 6].flatMap wordNibbles).length,
      memNibble decE18M1.mem decE18M1.srcAddr.toNat k = nibbleOr0 ([Instr.decShort 6].flatMap wordNibbles) k) ∧
    decE18M1.dstCap.toNat = [Instr.decShort 6].length :=
  ⟨inv_decE18M1, by decide +kernel, by unfold fresh; decide +kernel, by decide +kernel, by decide +kernel,
    by decide +kernel, by decide +kernel, by decide +kernel⟩

end Sys2Proof.Tests
end

section
/-! SUPPORT. What a host write to the register block does (10_state.md R32 to R35), and the statements about it. -/

namespace Sys2Proof.Machine

/-! ## A register access -/

/-- An aligned 32-bit access inside the register block is one it takes (R32). -/
theorem goodAccess_of_aligned {offset : Nat} (ha : offset % 4 = 0) (hr : offset ≤ 0x3C) :
    goodAccess offset 32 = true := by
  simp [goodAccess, ha, hr]

/-! ## The commands while BUSY -/

theorem startCommand_of_busy {s : State} (hb : busy s = true) (f : Fsm) : startCommand f s = .next s := by
  simp [startCommand, hb]

theorem execReserved_of_busy {s : State} (hb : busy s = true) : execReserved s = .next s := by
  simp [execReserved, hb]

/-- A word written to CMD is one of the four commands (R90). -/
theorem decodeCommand_cases (v : Word) :
    decodeCommand v = .nop ∨ decodeCommand v = .startEncode ∨ decodeCommand v = .startDecode ∨
      decodeCommand v = .reserved := by
  unfold decodeCommand
  split <;> simp

/-- Whatever is written to CMD while BUSY, its command does nothing (R35). -/
theorem exec_decodeCommand_of_busy {s : State} (hb : busy s = true) (v : Word) :
    exec (decodeCommand v) s = .next s := by
  obtain h | h | h | h := decodeCommand_cases v <;> rw [h]
  · rfl
  · exact startCommand_of_busy hb .encRun
  · exact startCommand_of_busy hb .decRun
  · exact execReserved_of_busy hb

/-! ## A register write -/

/-- `writeRegister` field by field: only the four operands can change (R34). -/
theorem writeRegister_eq (s : State) (offset : Nat) (v : Word) :
    writeRegister s offset v =
      { s with
        srcAddr := if offset = 0x08 then addressBits s v else s.srcAddr
        srcLen := if offset = 0x0C then v else s.srcLen
        dstAddr := if offset = 0x10 then addressBits s v else s.dstAddr
        dstCap := if offset = 0x14 then v else s.dstCap } := by
  unfold writeRegister
  split
  case h_5 h8 hC h10 h14 => rw [if_neg h8, if_neg hC, if_neg h10, if_neg h14]
  all_goals rfl

/-- A good write while BUSY changes nothing (R35). -/
theorem regWrite_of_busy {s : State} {offset bits : Nat} (hg : goodAccess offset bits = true) (hb : busy s = true)
    (v : Word) : regWrite offset bits v s = .next s := by
  obtain rfl | hc := eq_or_ne offset 0x00
  · simp [regWrite, hg, exec_decodeCommand_of_busy hb]
  · simp [regWrite, hg, hc, hb]

/-- A good write while IDLE to a register other than CMD is `writeRegister` (R34). -/
theorem regWrite_of_idle {s : State} {offset bits : Nat} (hg : goodAccess offset bits = true) (hi : busy s = false)
    (hc : offset ≠ 0x00) (v : Word) : regWrite offset bits v s = .next (writeRegister s offset v) := by
  simp [regWrite, hg, hi, hc]

/-! ## The statements -/

/-- Settles O36: a good write while IDLE is `writeRegister`, whose fields `writeRegister_eq` gives. -/
theorem registerWriteIdle : Obligations.RegisterWriteIdle := by
  intro s offset v rest hs hf ha hpos hr
  have hi : busy (s.setScript rest) = false := busy_eq_false.mpr hf
  calc step s = regWrite offset 32 v (s.setScript rest) := step_cons hs
    _ = .next (writeRegister (s.setScript rest) offset v) :=
      regWrite_of_idle (goodAccess_of_aligned ha hr) hi hpos.ne' v
    _ = _ := by rw [writeRegister_eq]; rfl

/-- Settles O37: a write to CMD is one of the four commands, each of which does nothing while BUSY; any other write is
dropped before it reaches a register. -/
theorem registerWriteBusy : Obligations.RegisterWriteBusy := by
  intro s offset v rest hs hf ha hr
  have hb : busy (s.setScript rest) = true := busy_iff.mpr hf
  calc step s = regWrite offset 32 v (s.setScript rest) := step_cons hs
    _ = .next (s.setScript rest) := regWrite_of_busy (goodAccess_of_aligned ha hr) hb v

end Sys2Proof.Machine
end

section
/-! SUPPORT. What a CMD word selects (30_encoding.md R90), and the statement about it. -/

namespace Sys2Proof.Machine

/-- The remainder of a CMD word by 4, on which `decodeCommand` branches, is its field `OP` (R90). -/
theorem toNat_append_op_mod_four (hi : BitVec 30) (op : BitVec 2) : (hi ++ op).toNat % 4 = op.toNat := by
  rw [← BitVec.toNat_setWidth 2, BitVec.setWidth_append_eq_right]

/-- Bits 31:2 of a CMD word are ignored (R90): it selects what the word with the same `OP` and zeros there selects. -/
theorem decodeCommand_append (hi : BitVec 30) (op : BitVec 2) :
    decodeCommand (hi ++ op) = decodeCommand ((0 : BitVec 30) ++ op) := by
  unfold decodeCommand
  rw [toNat_append_op_mod_four hi op, toNat_append_op_mod_four 0 op]

/-- Settles O4: bits 31:2 are ignored (`decodeCommand_append`), which leaves the four words where they are zero. -/
theorem commandByOp : Obligations.CommandByOp := by
  intro hi
  simp only [decodeCommand_append hi]
  decide

end Sys2Proof.Machine
end

section
/-! SUPPORT. The packer's output as a list of nibbles (20_memory.md R61; 40_encoder.md R105, R110). -/

namespace Sys2Proof.Machine

/-! ## Packed bytes -/

/-- The `n` bytes of memory from `base` are the first ones of the packed stream of `ns`: two nibbles to a byte, 0 past
the last nibble (R61, R110). -/
def bytesPacked (m : Memory) (base n : Nat) (ns : List Nibble) : Prop :=
  ∀ i < n, Memory.read m (base + i) = packByte (nibbleOr0 ns (2 * i)) (nibbleOr0 ns (2 * i + 1))

theorem nibbleOr0_append_left {ns : List Nibble} (c : List Nibble) {k : Nat} (h : k < ns.length) :
    nibbleOr0 (ns ++ c) k = nibbleOr0 ns k :=
  List.getD_append ns c 0 k h

theorem nibbleOr0_append_length (ns : List Nibble) (v : Nibble) : nibbleOr0 (ns ++ [v]) ns.length = v := by
  simp [nibbleOr0]

theorem nibbleOr0_length (ns : List Nibble) : nibbleOr0 ns ns.length = 0 := by
  simp [nibbleOr0]

/-- Each lane of a packed byte gives its nibble back (R61). -/
theorem halfOf_packByte (k : Nat) (lo hi : Nibble) : halfOf k (packByte lo hi) = if k % 2 = 0 then lo else hi := by
  unfold halfOf
  split
  · exact BitVec.extractLsb'_append_eq_right
  · exact BitVec.extractLsb'_append_eq_left

/-- Bytes that are complete stay packed when the stream goes on. -/
theorem bytesPacked.append {m : Memory} {base n : Nat} {ns : List Nibble} (h : bytesPacked m base n ns)
    (hn : 2 * n ≤ ns.length) (c : List Nibble) : bytesPacked m base n (ns ++ c) := by
  intro i hi
  rw [h i hi, nibbleOr0_append_left c (by omega), nibbleOr0_append_left c (by omega)]

/-- Writing the next byte of the stream packs one byte more. -/
theorem bytesPacked.write {m : Memory} {base n : Nat} {ns : List Nibble} (h : bytesPacked m base n ns)
    {lo hi : Nibble} (hlo : lo = nibbleOr0 ns (2 * n)) (hhi : hi = nibbleOr0 ns (2 * n + 1)) :
    bytesPacked (Memory.write m (base + n) (packByte lo hi)) base (n + 1) ns := by
  intro i hin
  obtain hlt | rfl := Nat.lt_succ_iff_lt_or_eq.mp hin
  · rw [Memory.read_write_other (by omega), h i hlt]
  · rw [Memory.read_write_same, hlo, hhi]

/-- The nibble at an index whose byte is packed. -/
theorem bytesPacked.memNibble_eq {m : Memory} {base n : Nat} {ns : List Nibble} (h : bytesPacked m base n ns) {k : Nat}
    (hk : k / 2 < n) : memNibble m base k = nibbleOr0 ns k := by
  rw [memNibble, h _ hk, halfOf_packByte]
  split <;> congr 1 <;> omega

/-- With its last byte packed, memory holds the stream and its pad (R112). -/
theorem holdsStream_of_bytesPacked {m : Memory} {base : Nat} {ns : List Nibble}
    (h : bytesPacked m base ((ns.length + 1) / 2) ns) : holdsStream m base ns :=
  ⟨fun _ hk => h.memNibble_eq (by omega), fun ho => (h.memNibble_eq (by omega)).trans (nibbleOr0_length ns)⟩

/-! ## The packer -/

/-- The packer of `u` has emitted `ns` since memory was `m`: the complete bytes are written, an odd last nibble is held,
and no other byte is changed. -/
structure Packed (m : Memory) (u : State) (ns : List Nibble) : Prop where
  cursor : u.ncur.toNat = ns.length
  bytes : bytesPacked u.mem u.dstAddr.toNat (ns.length / 2) ns
  held : ns.length % 2 = 1 → u.hold = nibbleOr0 ns (ns.length - 1)
  frame : ∀ a, a < u.dstAddr.toNat ∨ u.dstAddr.toNat + ns.length / 2 ≤ a → Memory.read u.mem a = Memory.read m a

namespace Packed

variable {m : Memory} {u : State} {ns : List Nibble}

theorem packAddr_eq (h : Packed m u ns) : packAddr u = u.dstAddr.toNat + ns.length / 2 := by
  rw [packAddr, h.cursor]

/-- With an odd nibble held, writing it with a high half packs the byte at the cursor. -/
theorem write_held (h : Packed m u ns) (ho : ns.length % 2 = 1) {ns' : List Nibble} {hi : Nibble}
    (hb : bytesPacked u.mem u.dstAddr.toNat (ns.length / 2) ns')
    (hlo : nibbleOr0 ns' (ns.length - 1) = nibbleOr0 ns (ns.length - 1)) (hhi : hi = nibbleOr0 ns' ns.length) :
    bytesPacked (Memory.write u.mem (packAddr u) (packByte u.hold hi)) u.dstAddr.toNat ((ns.length + 1) / 2) ns' := by
  rw [h.packAddr_eq, show (ns.length + 1) / 2 = ns.length / 2 + 1 by omega]
  refine hb.write ?_ ?_
  · rw [h.held ho, ← hlo, show 2 * (ns.length / 2) = ns.length - 1 by omega]
  · rw [hhi, show 2 * (ns.length / 2) + 1 = ns.length by omega]

/-- A write at the cursor leaves every byte outside the output up to and with that byte. -/
theorem frame_write (h : Packed m u ns) (ho : ns.length % 2 = 1) (v : Byte) {a : Nat}
    (ha : a < u.dstAddr.toNat ∨ u.dstAddr.toNat + (ns.length + 1) / 2 ≤ a) :
    Memory.read (Memory.write u.mem (packAddr u) v) a = Memory.read m a := by
  rw [h.packAddr_eq, Memory.read_write_other (by omega)]
  exact h.frame a (by omega)

/-- EmitNibble appends its nibble (R105). -/
theorem emit_nibble (h : Packed m u ns) (v : Nibble) (hc : ns.length + 1 ≤ 2 * u.dstCap.toNat)
    (hd : u.dstAddr.toNat + u.dstCap.toNat ≤ 2 ^ u.addrW) :
    ∃ t, emitNibble v u = some t ∧ Packed m t (ns ++ [v]) ∧ t.addrW = u.addrW ∧ t.dstAddr = u.dstAddr ∧
      t.dstCap = u.dstCap := by
  have hlt := u.dstCap.isLt
  have hcur : (u.ncur + BitVec.ofNat 33 1).toNat = (ns ++ [v]).length := by
    rw [ncur_add_toNat (by rw [h.cursor]; omega), h.cursor, List.length_append, List.length_singleton]
  obtain he | ho := Nat.mod_two_eq_zero_or_one ns.length
  · have hdiv : (ns ++ [v]).length / 2 = ns.length / 2 := by simp; omega
    refine ⟨_, emitNibble_even v (by rwa [h.cursor]), ⟨hcur, ?_, fun _ => ?_, ?_⟩, rfl, rfl, rfl⟩
    · rw [hdiv]; exact h.bytes.append (by omega) [v]
    · simpa using (nibbleOr0_append_length ns v).symm
    · rw [hdiv]; exact h.frame
  · have hdiv : (ns ++ [v]).length / 2 = (ns.length + 1) / 2 := by simp
    have ha : packAddr u < 2 ^ u.addrW := by rw [h.packAddr_eq]; omega
    refine ⟨_, emitNibble_odd v (by rwa [h.cursor]) ha, ⟨hcur, ?_, fun hodd => ?_, ?_⟩, rfl, rfl, rfl⟩
    · rw [hdiv]
      exact h.write_held ho (h.bytes.append (by omega) [v]) (nibbleOr0_append_left [v] (by omega))
        (nibbleOr0_append_length ns v).symm
    · simp at hodd; omega
    · rw [hdiv]; exact fun a => h.frame_write ho _

/-- The emission of a word appends its nibbles (R101, R105). -/
theorem emit_word (h : Packed m u ns) (c : List Nibble) (hc : ns.length + c.length ≤ 2 * u.dstCap.toNat)
    (hd : u.dstAddr.toNat + u.dstCap.toNat ≤ 2 ^ u.addrW) :
    ∃ t, emitNibbles c u = some t ∧ Packed m t (ns ++ c) := by
  induction c generalizing u ns with
  | nil => exact ⟨u, rfl, by simpa using h⟩
  | cons v vs ih =>
    rw [List.length_cons] at hc
    obtain ⟨t, ht, hp, hw, hda, hdc⟩ := h.emit_nibble v (by omega) hd
    obtain ⟨w, hw', hp'⟩ := ih hp (by rw [hdc, List.length_append, List.length_singleton]; omega)
      (by rw [hw, hda, hdc]; exact hd)
    exact ⟨w, by rw [emitNibbles, ht]; exact hw', by simpa using hp'⟩

/-- finish of ENCODE: the flush completes the last byte with the pad, and the command ends (R110, R111). -/
theorem finish (h : Packed m u ns) (e : ErrCode) (hf : u.fsm = .encRun) (hc : ns.length ≤ 2 * u.dstCap.toNat)
    (hd : u.dstAddr.toNat + u.dstCap.toNat ≤ 2 ^ u.addrW) :
    ∃ m', finishCommand e u =
        .next ((u.setMem m').endWith e (BitVec.ofNat 32 ((ns.length + 1) / 2)) u.scur 0) ∧
      bytesPacked m' u.dstAddr.toNat ((ns.length + 1) / 2) ns ∧
      ∀ a, a < u.dstAddr.toNat ∨ u.dstAddr.toNat + (ns.length + 1) / 2 ≤ a → Memory.read m' a = Memory.read m a := by
  rw [← h.cursor]
  obtain he | ho := Nat.mod_two_eq_zero_or_one u.ncur.toNat
  · have hdiv : (u.ncur.toNat + 1) / 2 = ns.length / 2 := by rw [h.cursor] at he ⊢; omega
    refine ⟨u.mem, finishCommand_enc_even e hf he, ?_, ?_⟩ <;> rw [hdiv]
    · exact h.bytes
    · exact h.frame
  · have ha : packAddr u < 2 ^ u.addrW := by rw [h.packAddr_eq]; rw [h.cursor] at ho; omega
    refine ⟨_, finishCommand_enc_odd e hf ho ha, ?_, ?_⟩ <;> rw [h.cursor] at ho ⊢
    · exact h.write_held ho h.bytes rfl (nibbleOr0_length ns).symm
    · exact fun a => h.frame_write ho _

end Packed

end Sys2Proof.Machine
end

section
/-! SUPPORT. A whole run of ENCODE (40_encoder.md R101, R111 to R113), and the statements about it. -/

namespace Sys2Proof.Machine

/-! ## Running the engine -/

theorem runEngine_of_idle {s : State} (h : s.fsm = .idle) (n : Nat) : runEngine n s = s := by
  cases n <;> simp [runEngine, busy, h]

theorem runEngine_succ_of_next {s t : State} (hb : s.fsm ≠ .idle) (h : engineStep s = .next t) (n : Nat) :
    runEngine (n + 1) s = runEngine n t := by
  simp [runEngine, busy, hb, h]

/-! ## The samples and their stream -/

/-- The samples in the input buffer of a command. -/
def inputSamples (s : State) : List Byte := bytesAt s.mem s.srcAddr.toNat s.srcLen.toNat

/-- The nibbles of the first `j` code words (R112). -/
def encStream (s : State) (j : Nat) : List Nibble := streamOf 0 ((inputSamples s).take j)

/-- The sample before sample `j`, the seed 0 before the first (R40, R107). -/
def sampleBefore (s : State) (j : Nat) : Byte := ((inputSamples s).take j).getLastD 0

/-- One sample more appends its code word. -/
theorem streamOf_concat (p : Byte) (xs : List Byte) (x : Byte) :
    streamOf p (xs ++ [x]) = streamOf p xs ++ sampleWord (xs.getLastD p) x := by
  induction xs generalizing p with
  | nil => simp [streamOf]
  | cons y ys ih => rw [List.cons_append, streamOf, ih, List.getLastD_cons, streamOf, List.append_assoc]

theorem inputSamples_take_succ {s : State} {j : Nat} (h : j < s.srcLen.toNat) :
    (inputSamples s).take (j + 1) = (inputSamples s).take j ++ [Memory.read s.mem (s.srcAddr.toNat + j)] := by
  have hj : j < (inputSamples s).length := by simpa [inputSamples, bytesAt] using h
  rw [List.take_succ_eq_append_getElem hj]
  simp [inputSamples, bytesAt]

theorem encStream_succ {s : State} {j : Nat} (h : j < s.srcLen.toNat) :
    encStream s (j + 1) =
      encStream s j ++ sampleWord (sampleBefore s j) (Memory.read s.mem (s.srcAddr.toNat + j)) := by
  rw [encStream, inputSamples_take_succ h, streamOf_concat]; rfl

theorem sampleBefore_succ {s : State} {j : Nat} (h : j < s.srcLen.toNat) :
    sampleBefore s (j + 1) = Memory.read s.mem (s.srcAddr.toNat + j) := by
  rw [sampleBefore, inputSamples_take_succ h, List.getLastD_concat]

/-- A code word has at most 4 nibbles (R113). -/
theorem sampleWord_length_le (p smp : Byte) : (sampleWord p smp).length ≤ 4 := by
  have := wordNibbles_classify_length (delta p smp)
  unfold sampleWord; omega

/-- `k` code words have at most 4k nibbles (R113). -/
theorem encStream_length_le {s : State} {k : Nat} (hk : k ≤ s.srcLen.toNat) : (encStream s k).length ≤ 4 * k := by
  induction k with
  | zero => simp [encStream, streamOf]
  | succ k ih =>
    have hw := sampleWord_length_le (sampleBefore s k) (Memory.read s.mem (s.srcAddr.toNat + k))
    have := ih (by omega)
    rw [encStream_succ hk, List.length_append]; omega

/-! ## The encoder after `j` samples -/

/-- `u` is the machine on which the ENCODE started in `s` has committed `j` samples. -/
structure Encoding (s u : State) (j : Nat) : Prop where
  running : u.fsm = .encRun
  operands : u.addrW = s.addrW ∧ u.srcAddr = s.srcAddr ∧ u.srcLen = s.srcLen ∧ u.dstAddr = s.dstAddr ∧
    u.dstCap = s.dstCap
  samples : u.scur.toNat = j
  prev : u.prev = sampleBefore s j
  packed : Packed s.mem u (encStream s j)

theorem Encoding.start {s : State} (hf : s.fsm = .encRun) (h : fresh s) : Encoding s s 0 := by
  obtain ⟨hn, hs, hp⟩ := h
  refine ⟨hf, ⟨rfl, rfl, rfl, rfl, rfl⟩, by simp [hs], by simp [hp, sampleBefore], ?_⟩
  exact ⟨by simp [hn, encStream, streamOf], fun i hi => absurd hi (by simp [encStream, streamOf]),
    fun ho => absurd ho (by simp [encStream, streamOf]), fun _ _ => rfl⟩

namespace Encoding

variable {s u : State} {j : Nat}

/-- The output buffer lies in memory (R69). -/
theorem output_fits (h : Encoding s u j) (hr : startRefusal s = none) :
    u.dstAddr.toNat + u.dstCap.toNat ≤ 2 ^ u.addrW := by
  obtain ⟨hw, -, -, hd, hc⟩ := h.operands
  rw [hw, hd, hc]
  exact (startRefusal_eq_none.mp hr).2.1

/-- After the last sample the engine ends the command (R101). -/
theorem engineStep_last (h : Encoding s u s.srcLen.toNat) : engineStep u = finishCommand .none u := by
  obtain ⟨-, -, hl, -, -⟩ := h.operands
  have he : encodeEnds u = true := by
    simpa [encodeEnds, hl] using BitVec.eq_of_toNat_eq h.samples
  simp [engineStep, h.running, encodeStep, he]

/-- The sample at the cursor is in memory, and the output has not touched it (R64, R69). -/
theorem input_read (h : Encoding s u j) (hr : startRefusal s = none) (hj : j < s.srcLen.toNat)
    (hc : (encStream s j).length ≤ 2 * s.dstCap.toNat) :
    inputAddr u < 2 ^ u.addrW ∧ Memory.read u.mem (inputAddr u) = Memory.read s.mem (s.srcAddr.toNat + j) := by
  obtain ⟨hw, hs, -, hd, -⟩ := h.operands
  obtain ⟨hsrc, -, hdis, -, -⟩ := startRefusal_eq_none.mp hr
  have ha : inputAddr u = s.srcAddr.toNat + j := by rw [inputAddr, hs, h.samples]
  rw [disjoint_iff] at hdis
  exact ⟨by rw [ha, hw]; omega, by rw [ha]; exact h.packed.frame _ (by rw [hd]; omega)⟩

/-- Before the last sample the engine emits the word of the sample at the cursor (R101, R109). -/
theorem engineStep_word (h : Encoding s u j) (hr : startRefusal s = none) (hj : j < s.srcLen.toNat)
    (hc : (encStream s j).length ≤ 2 * s.dstCap.toNat) :
    u.scur ≠ u.srcLen ∧
      engineStep u = emitWord (sampleWord (sampleBefore s j) (Memory.read s.mem (s.srcAddr.toNat + j))) u := by
  obtain ⟨-, -, hl, -, -⟩ := h.operands
  obtain ⟨hin, hread⟩ := h.input_read hr hj hc
  have hne : u.scur ≠ u.srcLen := by
    intro e; have := h.samples; rw [e, hl] at this; omega
  have he : encodeEnds u = false := by simpa [encodeEnds] using hne
  refine ⟨hne, ?_⟩
  simp only [engineStep, h.running, encodeStep, he, memRead_of_lt hin, hread, exec_classify, h.prev]
  rfl

/-- A word that fits is committed (R101, R107). -/
theorem commits_next (h : Encoding s u j) (hr : startRefusal s = none) (hj : j < s.srcLen.toNat)
    (hc : (encStream s (j + 1)).length ≤ 2 * s.dstCap.toNat) :
    ∃ v, engineStep u = .next v ∧ Encoding s v (j + 1) := by
  have hc' := hc
  rw [encStream_succ hj, List.length_append] at hc'
  obtain ⟨hw, hs, hl, hd, hk⟩ := h.operands
  obtain ⟨hin, hread⟩ := h.input_read hr hj (by omega)
  obtain ⟨hne, hstep⟩ := h.engineStep_word hr hj (by omega)
  obtain ⟨t, ht, hp⟩ := h.packed.emit_word _ (by rw [hk]; exact hc') (h.output_fits hr)
  have hcom := emitWord_commits h.running hne hin (by rw [h.packed.cursor, hk]; exact hc') ht
  rw [hread] at hcom
  have hnext := hstep.trans hcom
  obtain ⟨hw', -, hs', hl', hd', hk', -⟩ := engineStep_frame hnext
  have hlt := u.dstCap.isLt
  obtain ⟨m', v', htu, -⟩ := emitNibbles_cases ht (by rw [h.packed.cursor]; omega)
  refine ⟨_, hnext, ?_, ⟨hw'.trans hw, hs'.trans hs, hl'.trans hl, hd'.trans hd, hk'.trans hk⟩, ?_, ?_, ?_⟩
  · simp [htu, h.running]
  · have hsc := (scur_succ_toNat (x := u.scur) (y := u.srcLen) (by rw [h.samples, hl]; omega) hne).1
    simp only [htu, State.commit_scur, hsc, h.samples]
  · rw [State.commit_prev, sampleBefore_succ hj]
  · rw [encStream_succ hj]
    exact ⟨hp.cursor, hp.bytes, hp.held, hp.frame⟩

/-- A word that does not fit ends the command (R106). -/
theorem engineStep_overflow (h : Encoding s u j) (hr : startRefusal s = none) (hj : j < s.srcLen.toNat)
    (hc : (encStream s j).length ≤ 2 * s.dstCap.toNat) (ho : 2 * s.dstCap.toNat < (encStream s (j + 1)).length) :
    engineStep u = finishCommand .overflow u := by
  rw [encStream_succ hj, List.length_append] at ho
  obtain ⟨-, -, -, -, hk⟩ := h.operands
  obtain ⟨hin, -⟩ := h.input_read hr hj hc
  obtain ⟨hne, hstep⟩ := h.engineStep_word hr hj hc
  rw [hstep, emitWord_overflows h.running hne hin (by rw [h.packed.cursor, hk]; exact ho)]

end Encoding

/-! ## The run -/

/-- The engine reaches sample `j` in `j` steps, as long as the words before it fit (R101). -/
theorem runEngine_encoding {s : State} (hf : s.fsm = .encRun) (hs : fresh s) (hr : startRefusal s = none) {j : Nat}
    (hj : j ≤ s.srcLen.toNat) (hc : (encStream s j).length ≤ 2 * s.dstCap.toNat) :
    ∃ u, Encoding s u j ∧ ∀ n, runEngine (j + n) s = runEngine n u := by
  induction j with
  | zero => exact ⟨s, .start hf hs, fun n => by rw [Nat.zero_add]⟩
  | succ j ih =>
    have hc' := hc
    rw [encStream_succ hj, List.length_append] at hc'
    obtain ⟨u, hu, hrun⟩ := ih (by omega) (by omega)
    obtain ⟨v, hv, henc⟩ := hu.commits_next hr hj hc
    refine ⟨v, henc, fun n => ?_⟩
    rw [Nat.add_assoc, Nat.add_comm 1 n, hrun, runEngine_succ_of_next (by simp [hu.running]) hv]

/-- The code with which an ENCODE ends that commits `k` samples (R112). -/
def encodeEndCode (s : State) (k : Nat) : ErrCode := if k = s.srcLen.toNat then .none else .overflow

/-- At sample `k`, the last one or one whose word does not fit, the engine ends the command (R101, R106). -/
theorem Encoding.engineStep_ends {s u : State} {k : Nat} (h : Encoding s u k) (hr : startRefusal s = none)
    (hk : k ≤ s.srcLen.toNat) (hc : (encStream s k).length ≤ 2 * s.dstCap.toNat)
    (hlast : k = s.srcLen.toNat ∨ 2 * s.dstCap.toNat < (encStream s (k + 1)).length) :
    engineStep u = finishCommand (encodeEndCode s k) u := by
  unfold encodeEndCode
  split
  · next he => subst he; exact h.engineStep_last
  · next hne => exact h.engineStep_overflow hr (by omega) hc (hlast.resolve_left hne)

/-- Where an ENCODE ends: with the first `k` samples committed, in the state `finish` leaves (R111, R112). -/
theorem atEnd_encode {s : State} {k : Nat} (hf : s.fsm = .encRun) (hs : fresh s) (hr : startRefusal s = none)
    (hk : k ≤ s.srcLen.toNat) (hc : (encStream s k).length ≤ 2 * s.dstCap.toNat)
    (hlast : k = s.srcLen.toNat ∨ 2 * s.dstCap.toNat < (encStream s (k + 1)).length) :
    ∃ u m, Encoding s u k ∧
      atEnd s = (u.setMem m).endWith (encodeEndCode s k)
        (BitVec.ofNat 32 (((encStream s k).length + 1) / 2)) u.scur 0 ∧
      bytesPacked m s.dstAddr.toNat (((encStream s k).length + 1) / 2) (encStream s k) ∧
      ∀ a, a < s.dstAddr.toNat ∨ s.dstAddr.toNat + ((encStream s k).length + 1) / 2 ≤ a →
        Memory.read m a = Memory.read s.mem a := by
  obtain ⟨u, hu, hrun⟩ := runEngine_encoding hf hs hr hk hc
  obtain ⟨-, -, -, hd, hcap⟩ := hu.operands
  obtain ⟨m, hfin, hbytes, hframe⟩ :=
    hu.packed.finish (encodeEndCode s k) hu.running (by rw [hcap]; exact hc) (hu.output_fits hr)
  have hsteps : stepsLeft s = k + ((s.srcLen.toNat - k) + 1) := by
    obtain ⟨-, hscur, -⟩ := hs
    simp [stepsLeft, hf, hscur]
    omega
  rw [hd] at hbytes hframe
  refine ⟨u, m, hu, ?_, hbytes, hframe⟩
  have hend := (hu.engineStep_ends hr hk hc hlast).trans hfin
  rw [atEnd, hsteps, hrun, runEngine_succ_of_next (by simp [hu.running]) hend, runEngine_of_idle (State.endWith_fsm ..)]

/-! ## The number of samples committed -/

/-- How many samples an ENCODE commits: all of them, or the most whose code words fit (R112). -/
def committed (s : State) : Nat :=
  Nat.findGreatest (fun k => (encStream s k).length ≤ 2 * s.dstCap.toNat) s.srcLen.toNat

theorem committed_le (s : State) : committed s ≤ s.srcLen.toNat := Nat.findGreatest_le _

theorem committed_fits (s : State) : (encStream s (committed s)).length ≤ 2 * s.dstCap.toNat :=
  Nat.findGreatest_spec (P := fun k => (encStream s k).length ≤ 2 * s.dstCap.toNat) (Nat.zero_le _)
    (by simp [encStream, streamOf])

theorem committed_last (s : State) :
    committed s = s.srcLen.toNat ∨ 2 * s.dstCap.toNat < (encStream s (committed s + 1)).length := by
  obtain he | hlt := (committed_le s).eq_or_lt
  · exact .inl he
  · exact .inr (not_le.mp (Nat.findGreatest_is_greatest
      (P := fun k => (encStream s k).length ≤ 2 * s.dstCap.toNat) (Nat.lt_succ_self (committed s)) hlt))

/-! ## The statements -/

/-- Settles O53: by induction on the samples the engine reaches sample `k` (`runEngine_encoding`), where it ends the
command with the stream packed (`atEnd_encode`). -/
theorem encodeResult : Obligations.EncodeResult := by
  intro s k hinv hf hs xs hk (hc : (encStream s k).length ≤ 2 * s.dstCap.toNat) hlast t
  obtain ⟨u, m, hu, ht, hbytes, hframe⟩ := atEnd_encode hf hs (hinv.busy_buffers (by simp [hf])) hk hc hlast
  replace ht : t = _ := ht
  have hlen : t.outLen.toNat = ((encStream s k).length + 1) / 2 := by
    rw [ht, State.endWith_outLen, BitVec.toNat_ofNat]
    exact Nat.mod_eq_of_lt (by omega)
  have hprev : sampleBefore s k = if k = 0 then 0 else Memory.read s.mem (s.srcAddr.toNat + (k - 1)) := by
    cases k with
    | zero => simp [sampleBefore]
    | succ k => simpa using sampleBefore_succ hk
  refine ⟨by simp [ht], by simp [ht], by simp [ht, encodeEndCode], by simp [ht, hu.samples], by simp [ht], hlen,
    ?_, ?_, ?_⟩
  · rw [ht, State.endWith_last, State.setMem_prev, hu.prev, hprev]
  · rw [ht]; exact holdsStream_of_bytesPacked hbytes
  · rw [hlen, ht]; exact hframe

/-- Settles O54: a code word has at most 4 nibbles (`sampleWord_length_le`), so `k` of them have at most 4k, and O53
says how the command ends. -/
theorem expansionBound : Obligations.ExpansionBound := by
  refine ⟨sampleWord_length_le, fun s hinv hf hs => ⟨encStream_length_le le_rfl, ?_, fun hcap => ?_⟩⟩
  · obtain ⟨-, -, -, -, -, hlen, -⟩ :=
      encodeResult s (committed s) hinv hf hs (committed_le s) (committed_fits s) (committed_last s)
    have hk := committed_le s
    calc (atEnd s).outLen.toNat = ((encStream s (committed s)).length + 1) / 2 := hlen
      _ ≤ 2 * committed s := by have := encStream_length_le hk; omega
      _ ≤ 2 * s.srcLen.toNat := Nat.mul_le_mul_left 2 hk
  · have h4 := encStream_length_le (s := s) le_rfl
    have hc : (encStream s s.srcLen.toNat).length ≤ 2 * s.dstCap.toNat := by omega
    obtain ⟨-, -, herr, hcons, -⟩ := encodeResult s s.srcLen.toNat hinv hf hs le_rfl hc (.inl rfl)
    exact ⟨by simpa using herr, BitVec.eq_of_toNat_eq hcons⟩

end Sys2Proof.Machine
end

section
/-! SUPPORT. The two directions of the table of code words (30_encoding.md R81, R85; 40_encoder.md R109; 41_decoder.md
R152), and the statement about them. -/

namespace Sys2Proof.Machine

/-! ## Decoding the nibbles of a code word -/

/-- A lane of the code window of some nibbles is the nibble of its index (R81). -/
theorem windowNibble_windowOf (ns : List Nibble) {j : Nat} (hj : j < 4) :
    windowNibble (windowOf ns) j = nibbleOr0 ns j := by
  unfold windowNibble windowOf
  interval_cases j
  · exact (BitVec.extractLsb'_append_eq_of_add_le (by decide)).trans
      ((BitVec.extractLsb'_append_eq_of_add_le (by decide)).trans BitVec.extractLsb'_append_eq_right)
  · exact (BitVec.extractLsb'_append_eq_of_add_le (by decide)).trans
      ((BitVec.extractLsb'_append_eq_of_add_le (by decide)).trans BitVec.extractLsb'_append_eq_left)
  · exact (BitVec.extractLsb'_append_eq_of_add_le (by decide)).trans BitVec.extractLsb'_append_eq_left
  · exact BitVec.extractLsb'_append_eq_left

/-- The decoder's table gives a code word back from its nibbles, whatever follows them (R81, R85). -/
theorem decodeWindow_wordNibbles {i : Instr} (hi : 0 < inspectedNibbles i) (hwf : wellFormed i = true)
    (rest : List Nibble) : decodeWindow (windowOf (wordNibbles i ++ rest)) = i := by
  simp (disch := decide) only [decodeWindow, windowNibble_windowOf]
  cases i with
  | decShort n0 =>
    have hn : n0.toNat ≤ 0xC := by simpa [wellFormed, shortNibble] using hwf
    simp [wordNibbles, nibbleOr0, hn]
  | decEscBad n1 =>
    have hn : n1 ≠ 0xD ∧ n1 ≠ 0xE := by simpa [wellFormed, badEscapeNibble] using hwf
    simp [wordNibbles, nibbleOr0, show n1 ≠ 13#4 from hn.1, show n1 ≠ 14#4 from hn.2]
  | decMidNeg | decMidPos | decEscNeg | decEscPos => simp [wordNibbles, nibbleOr0]
  | _ => exact absurd hi (Nat.lt_irrefl 0)

/-- The decoder inspects all of a code word's nibbles (R85). -/
theorem inspectedNibbles_eq_length {i : Instr} (hi : 0 < inspectedNibbles i) :
    inspectedNibbles i = (wordNibbles i).length := by
  cases i with
  | decShort | decMidNeg | decMidPos | decEscNeg | decEscBad | decEscPos => rfl
  | _ => exact absurd hi (Nat.lt_irrefl 0)

/-- A run that starts with the nibbles of a code word parses as it (R85). -/
theorem decodeNibbles_wordNibbles {i : Instr} (hi : 0 < inspectedNibbles i) (hwf : wellFormed i = true)
    (rest : List Nibble) : decodeNibbles (wordNibbles i ++ rest) = .ok (i, rest) := by
  have hl := inspectedNibbles_eq_length hi
  have hne : wordNibbles i ≠ [] := List.length_pos_iff.mp (hl ▸ hi)
  simp [decodeNibbles, decodeWindow_wordNibbles hi hwf, hne, hl]

/-- A word with a delta is a code word of the decoder. -/
theorem inspectedNibbles_pos_of_wordDelta {i : Instr} {d : Int} (h : wordDelta i = some d) : 0 < inspectedNibbles i := by
  cases i <;> cases h <;> exact Nat.succ_pos _

/-! ## The code word of an emission -/

/-- The decoder's code word with the nibbles of an emission (R81: the two directions of one table). -/
def readBack : Instr → Instr
  | .encShort v => .decShort v
  | .encMid .neg m => .decMidNeg m
  | .encMid .pos m => .decMidPos m
  | .encEsc .neg lo hi => .decEscNeg lo hi
  | .encEsc .pos lo hi => .decEscPos lo hi
  | i => i

@[simp] theorem wordNibbles_readBack (i : Instr) : wordNibbles (readBack i) = wordNibbles i := by
  unfold readBack
  split <;> rfl

/-- Reading back what Classify gives: the same delta, in a word the decoder accepts (R102 to R104, R140 to R146). -/
theorem readBack_classify {d : Int} (hlo : -255 ≤ d) (hhi : d ≤ 255) :
    wordDelta (readBack (classify d)) = some d ∧ wellFormed (readBack (classify d)) = true := by
  unfold classify signOfDelta
  simp only
  split_ifs with h6 h19 hneg hneg
  · have hv : ((BitVec.ofInt 4 (d + 6)).toNat : Int) = d + 6 := by
      rw [BitVec.toNat_ofInt]; omega
    simp only [readBack, wordDelta, wellFormed, shortNibble, shortDelta, Option.some.injEq, decide_eq_true_eq]
    omega
  all_goals
    simp only [readBack, wordDelta, wellFormed, signedDelta, midMagnitude, escMagnitude, BitVec.toNat_ofNat,
      Option.some.injEq, and_true]
    omega

/-- Settles O7: the word is the emission read back, which has the same nibbles. -/
theorem codeWordInverse : Obligations.CodeWordInverse := by
  intro d hlo hhi
  obtain ⟨hd, hwf⟩ := readBack_classify hlo hhi
  have hi := inspectedNibbles_pos_of_wordDelta hd
  refine ⟨readBack (classify d), ?_, hd, ?_⟩
  · simpa using decodeNibbles_wordNibbles hi hwf []
  · simpa using inspectedNibbles_eq_length hi

end Sys2Proof.Machine
end

section
/-! SUPPORT. A whole run of DECODE (41_decoder.md R131 to R133, R147 to R149). -/

namespace Sys2Proof.Machine

/-! ## The nibbles of the stream in memory -/

/-- Memory from `base` holds the nibbles `c` from nibble index `n` on (R61). -/
def holdsNibbles (m : Memory) (base n : Nat) (c : List Nibble) : Prop :=
  ∀ j < c.length, memNibble m base (n + j) = nibbleOr0 c j

theorem holdsNibbles_nil (m : Memory) (base n : Nat) : holdsNibbles m base n [] :=
  fun _ hj => absurd hj (Nat.not_lt_zero _)

theorem holdsNibbles_cons {m : Memory} {base n : Nat} {v : Nibble} {c : List Nibble} :
    holdsNibbles m base n (v :: c) ↔ memNibble m base n = v ∧ holdsNibbles m base (n + 1) c := by
  unfold holdsNibbles
  rw [List.length_cons, Nat.forall_lt_succ_left]
  simp [nibbleOr0, Nat.add_assoc, Nat.add_comm 1]

theorem holdsNibbles_append {m : Memory} {base n : Nat} {c c' : List Nibble} :
    holdsNibbles m base n (c ++ c') ↔ holdsNibbles m base n c ∧ holdsNibbles m base (n + c.length) c' := by
  induction c generalizing n with
  | nil => simp [holdsNibbles_nil]
  | cons v c ih => simp [holdsNibbles_cons, ih, and_assoc, Nat.add_assoc, Nat.add_comm 1]

/-- The decoder inspects the whole word at its cursor where its nibbles are available (R131, R149). -/
theorem inspectWord_of_holdsNibbles {s : State} {i : Instr} (hi : 0 < inspectedNibbles i) (hwf : wellFormed i = true)
    (hsrc : s.srcAddr.toNat + s.srcLen.toNat ≤ 2 ^ s.addrW)
    (hlen : s.ncur.toNat + (wordNibbles i).length ≤ 2 * s.srcLen.toNat)
    (hm : holdsNibbles s.mem s.srcAddr.toNat s.ncur.toNat (wordNibbles i)) :
    inspectWord s = some (wordNibbles i) := by
  have hn : ∀ k < 2 * s.srcLen.toNat, nibbleAt s k = some (memNibble s.mem s.srcAddr.toNat k) :=
    fun k hk => nibbleAt_of_lt (by omega)
  have ha : ∀ k < 2 * s.srcLen.toNat, available s k = true := fun k hk => by simpa [available] using hk
  cases i with
  | decShort n0 =>
    have hs : n0.toNat ≤ 0xC := by simpa [wellFormed, shortNibble] using hwf
    simp only [wordNibbles, holdsNibbles_cons, List.length_cons, List.length_nil] at hm hlen ⊢
    simp (disch := omega) [inspectWord, hn, hm.1, hs]
  | decEscBad n1 =>
    have hb : n1 ≠ 0xD ∧ n1 ≠ 0xE := by simpa [wellFormed, badEscapeNibble] using hwf
    simp only [wordNibbles, holdsNibbles_cons, List.length_cons, List.length_nil] at hm hlen ⊢
    simp (disch := omega) [inspectWord, hn, ha, hm, show n1 ≠ 13#4 from hb.1, show n1 ≠ 14#4 from hb.2]
  | decMidNeg | decMidPos | decEscNeg | decEscPos =>
    simp only [wordNibbles, holdsNibbles_cons, List.length_cons, List.length_nil] at hm hlen ⊢
    simp (disch := omega) [inspectWord, hn, ha, hm]
  | _ => exact absurd hi (Nat.lt_irrefl 0)

/-! ## One step of the decoder -/

/-- A word with a delta runs as the decoder step of that delta (R140 to R146). -/
theorem exec_of_wordDelta {i : Instr} {d : Int} (h : wordDelta i = some d) (s : State) :
    exec i s = decodeDelta (inspectedNibbles i) d s := by
  cases i <;> cases h <;> rfl

/-- With the count reached or no nibble left the engine ends the command (R132, R133). -/
theorem engineStep_of_decodeEnds {s : State} (hf : s.fsm = .decRun) (he : decodeEnds s = true) :
    engineStep s = finishCommand .none s := by
  simp [engineStep, hf, decodeStep, he]

/-- A word whose nibbles are all available, but whose sample is out of range (R147). -/
theorem decodeDelta_range {len : Nat} {d : Int} {s : State} (hf : s.fsm = .decRun) (he : decodeEnds s = false)
    (hl : 1 ≤ len) (h : s.ncur.toNat + len ≤ 2 * s.srcLen.toNat) (hv : isSample (reconstruct s.prev d) = false) :
    decodeDelta len d s = finishCommand .range s := by
  have hav : available s (s.ncur.toNat + (len - 1)) = true := by simp [available]; omega
  simp [decodeDelta, withWord, hf, he, hav, hv]

/-- The first sample of a run of code words, and the rest (R147). -/
theorem samplesOf_cons {p : Byte} {i : Instr} {is : List Instr} {zs : List Byte} (h : samplesOf p (i :: is) = some zs) :
    ∃ d y ys, wordDelta i = some d ∧ reconstruct p d = (y.toNat : Int) ∧ samplesOf y is = some ys ∧ zs = y :: ys := by
  unfold samplesOf at h
  split at h
  · cases h
  · next d hd =>
    simp only at h
    split at h
    · next hs =>
      obtain ⟨ys, hys, rfl⟩ := Option.map_eq_some_iff.mp h
      refine ⟨d, _, ys, hd, ?_, hys, rfl⟩
      simp only [isSample, Bool.and_eq_true, decide_eq_true_eq] at hs
      rw [BitVec.toNat_ofInt]
      omega
    · cases h

/-! ## The decoder after some samples -/

theorem bytesAt_succ (m : Memory) (base n : Nat) :
    bytesAt m base (n + 1) = bytesAt m base n ++ [Memory.read m (base + n)] := by
  simp [bytesAt, List.range_succ]

theorem bytesAt_eq_bytesAt_iff {m m' : Memory} {base base' n : Nat} :
    bytesAt m base n = bytesAt m' base' n ↔ ∀ i < n, Memory.read m (base + i) = Memory.read m' (base' + i) := by
  simp [bytesAt, List.map_inj_left]

/-- `u` is the machine on which the DECODE started in `s` has decoded `n` nibbles to the samples `ys`. -/
structure Decoding (s u : State) (n : Nat) (ys : List Byte) : Prop where
  started : s.fsm = .decRun ∧ fresh s
  buffers : startRefusal s = none
  room : ys.length ≤ s.dstCap.toNat
  running : u.fsm = .decRun
  operands : u.addrW = s.addrW ∧ u.srcAddr = s.srcAddr ∧ u.srcLen = s.srcLen ∧ u.dstAddr = s.dstAddr ∧
    u.dstCap = s.dstCap
  cursor : u.ncur.toNat = n
  samples : u.scur.toNat = ys.length
  prev : u.prev = ys.getLastD 0
  output : bytesAt u.mem s.dstAddr.toNat ys.length = ys
  frame : ∀ a, a < s.dstAddr.toNat ∨ s.dstAddr.toNat + ys.length ≤ a → Memory.read u.mem a = Memory.read s.mem a
  reached : ∀ k, runEngine (ys.length + k) s = runEngine k u

theorem Decoding.start {s : State} (hf : s.fsm = .decRun) (h : fresh s) (hr : startRefusal s = none) :
    Decoding s s 0 [] := by
  have ⟨hn, hs, hp⟩ := h
  exact ⟨⟨hf, h⟩, hr, Nat.zero_le _, hf, ⟨rfl, rfl, rfl, rfl, rfl⟩, by simp [hn], by simp [hs], by simp [hp], rfl,
    fun _ _ => rfl, fun k => by rw [List.length_nil, Nat.zero_add]⟩

/-- After `n` nibbles and the samples `ys` the stream of `s` goes on with the code word `i`, whole, and the count is not
reached. -/
structure NextWord (s : State) (n : Nat) (ys : List Byte) (i : Instr) : Prop where
  wf : wellFormed i = true
  count : ys.length < s.dstCap.toNat
  whole : n + (wordNibbles i).length ≤ 2 * s.srcLen.toNat
  held : holdsNibbles s.mem s.srcAddr.toNat n (wordNibbles i)

namespace Decoding

variable {s u : State} {n : Nat} {ys : List Byte}

/-- The input buffer still holds the stream: the output has not touched it (R64, R69). -/
theorem memNibble_eq (h : Decoding s u n ys) {k : Nat} (hk : k < 2 * s.srcLen.toNat) :
    memNibble u.mem s.srcAddr.toNat k = memNibble s.mem s.srcAddr.toNat k := by
  obtain ⟨-, -, hdis, -, -⟩ := startRefusal_eq_none.mp h.buffers
  rw [disjoint_iff] at hdis
  have hroom := h.room
  unfold memNibble
  rw [h.frame _ (by omega)]

/-- The engine runs the code word at the cursor (R131). -/
theorem engineStep_word (h : Decoding s u n ys) {i : Instr} (hi : 0 < inspectedNibbles i) (hw : NextWord s n ys i) :
    decodeEnds u = false ∧ engineStep u = exec i u := by
  obtain ⟨haw, hsa, hsl, -, hdc⟩ := h.operands
  obtain ⟨hwf, hcount, hwhole, hheld⟩ := hw
  obtain ⟨hsrc, -⟩ := startRefusal_eq_none.mp h.buffers
  have hpos := inspectedNibbles_eq_length hi ▸ hi
  have he : decodeEnds u = false := by
    rw [← Bool.not_eq_true, decodeEnds_iff, ← BitVec.toNat_inj, h.samples, h.cursor, hsl, hdc]
    omega
  have hins : inspectWord u = some (wordNibbles i) :=
    inspectWord_of_holdsNibbles hi hwf (by rw [hsa, hsl, haw]; exact hsrc) (by rw [h.cursor, hsl]; exact hwhole)
      (fun j hj => by rw [h.cursor, hsa, h.memNibble_eq (by omega)]; exact hheld j hj)
  have hdec := decodeWindow_wordNibbles hi hwf []
  rw [List.append_nil] at hdec
  exact ⟨he, by simp [engineStep, h.running, decodeStep, he, hins, hdec]⟩

/-- Writing the sample `y` and passing `len` nibbles leads to the machine one sample on (R148). -/
theorem next (h : Decoding s u n ys) {len : Nat} {y : Byte} (hM : ys.length < s.dstCap.toNat)
    (hP : n + len ≤ 2 * s.srcLen.toNat)
    (hstep : engineStep u = .next (((u.setMem (Memory.write u.mem (sampleAddr u) y)).commit y).advance len)) :
    Decoding s (((u.setMem (Memory.write u.mem (sampleAddr u) y)).commit y).advance len) (n + len) (ys ++ [y]) := by
  obtain ⟨-, -, -, hda, hdc⟩ := h.operands
  have haddr : sampleAddr u = s.dstAddr.toNat + ys.length := by rw [sampleAddr, hda, h.samples]
  have hlen : (ys ++ [y]).length = ys.length + 1 := List.length_append
  refine ⟨h.started, h.buffers, hlen ▸ hM, h.running, h.operands, ?_, ?_, ?_, ?_, fun a ha => ?_, fun k => ?_⟩
  · have := s.srcLen.isLt
    rw [State.advance_ncur, State.commit_ncur, State.setMem_ncur, ncur_add_toNat (by rw [h.cursor]; omega), h.cursor]
  · have hne : u.scur ≠ u.dstCap := fun e => by have := h.samples; rw [e, hdc] at this; omega
    rw [hlen, ← h.samples]
    exact (scur_succ_toNat (by rw [h.samples, hdc]; omega) hne).1
  · simp
  · have hold : bytesAt (Memory.write u.mem (sampleAddr u) y) s.dstAddr.toNat ys.length =
        bytesAt u.mem s.dstAddr.toNat ys.length :=
      bytesAt_eq_bytesAt_iff.mpr fun i hi => Memory.read_write_other (by omega)
    simp only [State.advance_mem, State.commit_mem, State.setMem_mem]
    rw [hlen, bytesAt_succ, hold, h.output, ← haddr, Memory.read_write_same]
  · rw [hlen] at ha
    exact (Memory.read_write_other (by omega)).trans (h.frame a (by omega))
  · rw [hlen, Nat.add_assoc, Nat.add_comm 1 k, h.reached, runEngine_succ_of_next (by simp [h.running]) hstep]

/-- A word with a sample in range writes it (R147, R148). -/
theorem writes (h : Decoding s u n ys) {i : Instr} {d : Int} {y : Byte} (hw : NextWord s n ys i)
    (hd : wordDelta i = some d) (hv : reconstruct (ys.getLastD 0) d = y.toNat) :
    ∃ v, Decoding s v (n + (wordNibbles i).length) (ys ++ [y]) := by
  obtain ⟨haw, -, hsl, hda, -⟩ := h.operands
  obtain ⟨-, hdst, -⟩ := startRefusal_eq_none.mp h.buffers
  have hi := inspectedNibbles_pos_of_wordDelta hd
  have hlen := inspectedNibbles_eq_length hi
  have hcount := hw.count
  obtain ⟨he, hstep⟩ := h.engineStep_word hi hw
  have haddr : sampleAddr u < 2 ^ u.addrW := by rw [sampleAddr, hda, h.samples, haw]; omega
  rw [exec_of_wordDelta hd, hlen, decodeDelta_writes h.running he (by omega) (by rw [h.cursor, hsl]; exact hw.whole)
    haddr (by rw [h.prev]; exact hv) (by omega), BitVec.ofNat_toNat, BitVec.setWidth_eq] at hstep
  exact ⟨_, h.next hcount hw.whole hstep⟩

/-- A word with a sample out of range ends the command with RANGE (R147). -/
theorem engineStep_range (h : Decoding s u n ys) {i : Instr} {d : Int} (hw : NextWord s n ys i)
    (hd : wordDelta i = some d) (hv : isSample (reconstruct (ys.getLastD 0) d) = false) :
    engineStep u = finishCommand .range u := by
  obtain ⟨-, -, hsl, -, -⟩ := h.operands
  have hi := inspectedNibbles_pos_of_wordDelta hd
  have hlen := inspectedNibbles_eq_length hi
  obtain ⟨he, hstep⟩ := h.engineStep_word hi hw
  rw [hstep, exec_of_wordDelta hd, hlen, decodeDelta_range h.running he (by omega)
    (by rw [h.cursor, hsl]; exact hw.whole) (by rw [h.prev]; exact hv)]

/-- With the count reached or the stream exhausted the engine ends the command with NONE (R132, R133). -/
theorem engineStep_none (h : Decoding s u n ys) (hend : ys.length = s.dstCap.toNat ∨ 2 * s.srcLen.toNat ≤ n) :
    engineStep u = finishCommand .none u := by
  obtain ⟨-, -, hsl, -, hdc⟩ := h.operands
  refine engineStep_of_decodeEnds h.running (decodeEnds_iff.mpr ?_)
  rw [← BitVec.toNat_inj, h.samples, h.cursor, hsl, hdc]
  exact hend

/-- The engine decodes the words of the stream one after the other, as long as their samples are in range (R131). -/
theorem run {ws : List Instr} {zs : List Byte} (h : Decoding s u n ys)
    (hz : samplesOf (ys.getLastD 0) ws = some zs) (hwf : ∀ i ∈ ws, wellFormed i = true)
    (hM : ys.length + zs.length ≤ s.dstCap.toNat) (hP : n + (ws.flatMap wordNibbles).length ≤ 2 * s.srcLen.toNat)
    (hm : holdsNibbles s.mem s.srcAddr.toNat n (ws.flatMap wordNibbles)) :
    ∃ v, Decoding s v (n + (ws.flatMap wordNibbles).length) (ys ++ zs) := by
  induction ws generalizing u n ys zs with
  | nil =>
    cases hz
    exact ⟨u, by simpa using h⟩
  | cons i ws ih =>
    obtain ⟨d, y, zs, hd, hv, hz, rfl⟩ := samplesOf_cons hz
    obtain ⟨hi, hws⟩ := List.forall_mem_cons.mp hwf
    rw [List.flatMap_cons] at hm hP ⊢
    rw [List.length_append] at hP ⊢
    rw [List.length_cons] at hM
    obtain ⟨hmi, hmws⟩ := holdsNibbles_append.mp hm
    obtain ⟨v, hv⟩ := h.writes ⟨hi, by omega, by omega, hmi⟩ hd hv
    obtain ⟨w, hw⟩ := ih hv (by rwa [List.getLastD_concat]) hws (by simp; omega) (by omega) hmws
    exact ⟨w, by simpa [Nat.add_assoc] using hw⟩

end Decoding

end Sys2Proof.Machine
end

section
/-! SUPPORT. The end of a DECODE (41_decoder.md R132, R133, R147, R150), what an ENCODE leaves for one, and the
statements about them (R153, R154, R156). -/

namespace Sys2Proof.Machine

/-! ## The end of a DECODE -/

/-- CONSUMED_HI and CONSUMED are the two parts of the cursor (R150). -/
theorem consumed_parts (x : NCursor) :
    2 ^ 32 * (x.extractLsb' 32 1).toNat + (x.extractLsb' 0 32).toNat = x.toNat := by
  have := x.isLt
  simp only [BitVec.extractLsb'_toNat, Nat.shiftRight_eq_div_pow]
  omega

/-- `t` is the machine on which the DECODE started in `s` has ended with `e`, having decoded `n` nibbles to the samples
`ys` (R150). -/
structure Decoded (s t : State) (e : ErrCode) (n : Nat) (ys : List Byte) : Prop where
  stopped : t.fsm = .idle
  done : t.done = true
  code : t.errCode = e
  outLen : t.outLen.toNat = ys.length
  consumed : 2 ^ 32 * t.consumedHi.toNat + t.consumed.toNat = n
  last : t.last = ys.getLastD 0
  output : bytesAt t.mem s.dstAddr.toNat ys.length = ys

/-- Where the engine ends the command, the DECODE ends (R150, R151). -/
theorem Decoding.decoded {s u : State} {n : Nat} {ys : List Byte} {e : ErrCode} (h : Decoding s u n ys)
    (he : engineStep u = finishCommand e u) : Decoded s (atEnd s) e n ys := by
  have hsteps : stepsLeft s = ys.length + ((s.dstCap.toNat - ys.length) + 1) := by
    obtain ⟨hf, -, hscur, -⟩ := h.started
    have hroom := h.room
    simp only [stepsLeft, hf, hscur, show (0 : Word).toNat = 0 from rfl]
    omega
  have ht : atEnd s = u.endWith e u.scur (u.ncur.extractLsb' 0 32) (u.ncur.extractLsb' 32 1) := by
    rw [atEnd, hsteps, h.reached, runEngine_succ_of_next (by simp [h.running]) (he.trans (finishCommand_dec e h.running)),
      runEngine_of_idle (State.endWith_fsm ..)]
  rw [ht]
  exact ⟨rfl, rfl, rfl, h.samples, (consumed_parts u.ncur).trans h.cursor, h.prev, h.output⟩

/-! ## The stream of an ENCODE -/

/-- The decoder's code words for samples, the sample before them being `p` (R101, R152). -/
def codeWords : Byte → List Byte → List Instr
  | _, [] => []
  | p, x :: xs => readBack (classify (delta p x)) :: codeWords x xs

theorem readBack_delta (p x : Byte) :
    wordDelta (readBack (classify (delta p x))) = some (delta p x) ∧
      wellFormed (readBack (classify (delta p x))) = true :=
  readBack_classify (by unfold delta; omega) (by unfold delta; omega)

theorem codeWords_wellFormed (p : Byte) (xs : List Byte) : ∀ i ∈ codeWords p xs, wellFormed i = true := by
  induction xs generalizing p with
  | nil => simp [codeWords]
  | cons x xs ih => simpa [codeWords, (readBack_delta p x).2] using ih x

/-- The encoder's stream is the nibbles of these code words. -/
theorem flatMap_codeWords (p : Byte) (xs : List Byte) : (codeWords p xs).flatMap wordNibbles = streamOf p xs := by
  induction xs generalizing p with
  | nil => rfl
  | cons x xs ih => simp [codeWords, streamOf, sampleWord, ih]

/-- Their samples are the ones encoded (R152). -/
theorem samplesOf_codeWords (p : Byte) (xs : List Byte) : samplesOf p (codeWords p xs) = some xs := by
  induction xs generalizing p with
  | nil => rfl
  | cons x xs ih =>
    have hv : reconstruct p (delta p x) = (x.toNat : Int) := by unfold reconstruct delta; omega
    have hs : isSample (x.toNat : Int) = true := by simp [isSample]; omega
    simp [codeWords, samplesOf, (readBack_delta p x).1, hv, hs, BitVec.ofInt_natCast, ih]

/-- Memory that holds a packed stream holds its nibbles. -/
theorem holdsStream.holdsNibbles {m : Memory} {base : Nat} {ns : List Nibble} (h : holdsStream m base ns) :
    holdsNibbles m base 0 ns :=
  fun j hj => by rw [Nat.zero_add]; exact h.1 j hj

/-- A copy of the bytes of a packed stream holds it too. -/
theorem holdsStream.copy {m m' : Memory} {base base' : Nat} {ns : List Nibble} (h : holdsStream m base ns)
    (hc : ∀ i < (ns.length + 1) / 2, Memory.read m' (base' + i) = Memory.read m (base + i)) :
    holdsStream m' base' ns := by
  have hk : ∀ k, k / 2 < (ns.length + 1) / 2 → memNibble m' base' k = memNibble m base k :=
    fun k hk => by rw [memNibble, hc _ hk, memNibble]
  exact ⟨fun k hlt => (hk k (by omega)).trans (h.1 k hlt), fun ho => (hk _ (by omega)).trans (h.2 ho)⟩

theorem inputSamples_length (s : State) : (inputSamples s).length = s.srcLen.toNat := by
  simp [inputSamples, bytesAt]

theorem take_inputSamples (s : State) : (inputSamples s).take s.srcLen.toNat = inputSamples s :=
  List.take_of_length_le (inputSamples_length s).le

theorem encStream_srcLen (s : State) : encStream s s.srcLen.toNat = streamOf 0 (inputSamples s) := by
  rw [encStream, take_inputSamples]

/-- LAST of an ENCODE that committed all its samples, as the last of them (R112). -/
theorem getLastD_inputSamples (s : State) :
    (inputSamples s).getLastD 0 =
      if s.srcLen.toNat = 0 then 0 else Memory.read s.mem (s.srcAddr.toNat + (s.srcLen.toNat - 1)) := by
  rw [← take_inputSamples]
  cases hN : s.srcLen.toNat with
  | zero => rfl
  | succ k => exact sampleBefore_succ (by omega)

/-- What an ENCODE that ended with NONE leaves (R112). -/
theorem encoded_of_none {s : State} (hinv : Inv s) (hf : s.fsm = .encRun) (hs : fresh s)
    (hok : (atEnd s).errCode = .none) :
    (atEnd s).outLen.toNat = ((streamOf 0 (inputSamples s)).length + 1) / 2 ∧
      (atEnd s).last = (inputSamples s).getLastD 0 ∧
      holdsStream (atEnd s).mem s.dstAddr.toNat (streamOf 0 (inputSamples s)) := by
  obtain ⟨-, -, hcode, -, -, hlen, hlast, hst, -⟩ :=
    encodeResult s (committed s) hinv hf hs (committed_le s) (committed_fits s) (committed_last s)
  have hk : committed s = s.srcLen.toNat := by
    by_contra hne
    rw [if_neg hne, hok] at hcode
    cases hcode
  rw [hk] at hlen hlast hst
  rw [← encStream_srcLen]
  exact ⟨hlen, hlast.trans (getLastD_inputSamples s).symm, hst⟩

/-- `u` is a DECODE just started on a copy of what the ENCODE started in `s` made, which ended with NONE (R153). -/
structure DecodesEncoded (s u : State) : Prop where
  enc_inv : Inv s
  enc_running : s.fsm = .encRun
  enc_fresh : fresh s
  enc_ok : (atEnd s).errCode = .none
  dec_inv : Inv u
  dec_running : u.fsm = .decRun
  dec_fresh : fresh u
  packed_len : u.srcLen = (atEnd s).outLen
  copied : ∀ i < (atEnd s).outLen.toNat,
    Memory.read u.mem (u.srcAddr.toNat + i) = Memory.read (atEnd s).mem (s.dstAddr.toNat + i)

namespace DecodesEncoded

variable {s u : State}

theorem start (h : DecodesEncoded s u) : Decoding u u 0 [] :=
  .start h.dec_running h.dec_fresh (h.dec_inv.busy_buffers (by simp [h.dec_running]))

theorem srcLen_eq (h : DecodesEncoded s u) : u.srcLen.toNat = ((streamOf 0 (inputSamples s)).length + 1) / 2 := by
  obtain ⟨hlen, -, -⟩ := encoded_of_none h.enc_inv h.enc_running h.enc_fresh h.enc_ok
  rw [h.packed_len, hlen]

theorem last_eq (h : DecodesEncoded s u) : (atEnd s).last = (inputSamples s).getLastD 0 := by
  obtain ⟨-, hlast, -⟩ := encoded_of_none h.enc_inv h.enc_running h.enc_fresh h.enc_ok
  exact hlast

theorem holdsStream (h : DecodesEncoded s u) :
    holdsStream u.mem u.srcAddr.toNat (streamOf 0 (inputSamples s)) := by
  obtain ⟨hlen, -, hst⟩ := encoded_of_none h.enc_inv h.enc_running h.enc_fresh h.enc_ok
  exact hst.copy (hlen ▸ h.copied)

/-- With room for them the DECODE reaches the end of the samples (R153). -/
theorem decoding (h : DecodesEncoded s u) (hM : s.srcLen.toNat ≤ u.dstCap.toNat) :
    ∃ v, Decoding u v (streamOf 0 (inputSamples s)).length (inputSamples s) := by
  have hlen := h.srcLen_eq
  have hrun := h.start.run (samplesOf_codeWords 0 (inputSamples s)) (codeWords_wellFormed 0 _)
  rw [flatMap_codeWords, Nat.zero_add, inputSamples_length] at hrun
  exact hrun (by simpa using hM) (by omega) h.holdsStream.holdsNibbles

/-- An odd stream fills its bytes up to the pad (R110). -/
theorem odd_length_succ (h : DecodesEncoded s u) (hodd : (streamOf 0 (inputSamples s)).length % 2 = 1) :
    (streamOf 0 (inputSamples s)).length + 1 = 2 * u.srcLen.toNat := by
  rw [h.srcLen_eq]
  omega

/-- After an odd stream the pad stands as a code word, SHORT -6 (R156). -/
theorem pad_nextWord (h : DecodesEncoded s u) (hM : s.srcLen.toNat < u.dstCap.toNat)
    (hodd : (streamOf 0 (inputSamples s)).length % 2 = 1) :
    NextWord u (streamOf 0 (inputSamples s)).length (inputSamples s) (.decShort 0) where
  wf := rfl
  count := by rwa [inputSamples_length]
  whole := (h.odd_length_succ hodd).le
  held := holdsNibbles_cons.mpr ⟨h.holdsStream.2 hodd, holdsNibbles_nil _ _ _⟩

/-- The sample the pad stands for is LAST + 6 (R156). -/
theorem reconstruct_pad (h : DecodesEncoded s u) :
    reconstruct ((inputSamples s).getLastD 0) (shortDelta 0) = ((atEnd s).last.toNat : Int) + 6 := by
  rw [← h.last_eq]
  simp [reconstruct, shortDelta]

/-- With LAST + 6 a sample, it is written and the stream is exhausted (R156). -/
theorem decoded_pad (h : DecodesEncoded s u) (hM : s.srcLen.toNat < u.dstCap.toNat)
    (hodd : (streamOf 0 (inputSamples s)).length % 2 = 1) (hL : (atEnd s).last.toNat ≤ 249) :
    Decoded u (atEnd u) .none ((streamOf 0 (inputSamples s)).length + 1) (inputSamples s ++ [(atEnd s).last + 6]) := by
  have hy : ((atEnd s).last + 6).toNat = (atEnd s).last.toNat + 6 := by
    rw [BitVec.toNat_add, show (6 : Byte).toNat = 6 from rfl]; omega
  obtain ⟨w, hw⟩ := h.decoding hM.le
  obtain ⟨x, hx⟩ := hw.writes (h.pad_nextWord hM hodd) rfl (h.reconstruct_pad.trans (by rw [hy]; rfl))
  exact hx.decoded (hx.engineStep_none (.inr (h.odd_length_succ hodd).ge))

/-- With LAST + 6 above 255, the pad ends the command with RANGE (R156). -/
theorem decoded_pad_range (h : DecodesEncoded s u) (hM : s.srcLen.toNat < u.dstCap.toNat)
    (hodd : (streamOf 0 (inputSamples s)).length % 2 = 1) (hL : 250 ≤ (atEnd s).last.toNat) :
    Decoded u (atEnd u) .range (streamOf 0 (inputSamples s)).length (inputSamples s) := by
  have hv : isSample (reconstruct ((inputSamples s).getLastD 0) (shortDelta 0)) = false := by
    rw [h.reconstruct_pad]
    simp only [isSample, Bool.and_eq_false_iff, decide_eq_false_iff_not]
    omega
  obtain ⟨w, hw⟩ := h.decoding hM.le
  exact hw.decoded (hw.engineStep_range (h.pad_nextWord hM hodd) rfl hv)

end DecodesEncoded

/-! ## The statements -/

/-- Settles O55: the step ends the command before the memory port is used (`engineStep_of_decodeEnds`). -/
theorem emptyDecode : Obligations.EmptyDecode := by
  intro s u hturn hf ⟨hn, hs, hp⟩ hempty
  have he : decodeEnds u = true := decodeEnds_iff.mpr <| by
    obtain hM | hP := hempty
    · exact .inl (hs.trans hM.symm)
    · exact .inr (by simp [hP])
  have hstep : step s = finishCommand .none u := (step_of_engineTurn hturn).trans (engineStep_of_decodeEnds hf he)
  refine ⟨_, hstep.trans (finishCommand_dec .none hf), ?_⟩
  simp [hn, hs, hp]

/-- Settles O56: the DECODE reaches the end of the samples (`DecodesEncoded.decoding`), where the count is reached. -/
theorem roundTrip : Obligations.RoundTrip := by
  intro s u hs hsf hsn hok hu huf hun hlen hcap hcopy v
  have h : DecodesEncoded s u := ⟨hs, hsf, hsn, hok, hu, huf, hun, hlen, hcopy⟩
  have hN : (inputSamples s).length = u.dstCap.toNat := by rw [hcap, inputSamples_length]
  obtain ⟨w, hw⟩ := h.decoding (by rw [hcap])
  have hv : Decoded u v .none _ _ := hw.decoded (hw.engineStep_none (.inl hN))
  have hout := hv.output
  rw [inputSamples_length] at hout
  exact ⟨hv.stopped, hv.done, hv.code, BitVec.eq_of_toNat_eq (hv.outLen.trans (inputSamples_length s)), hv.consumed,
    hv.last.trans h.last_eq.symm, bytesAt_eq_bytesAt_iff.mp hout⟩

/-- Settles O58: after the samples the cursor stands on the pad, SHORT -6: its sample LAST + 6 is written and exhausts
the stream, or is out of range. -/
theorem padNibbleDecoded : Obligations.PadNibbleDecoded := by
  intro s u hs hsf hsn hok hu huf hun hlen hcap hcopy T L v hodd
  have h : DecodesEncoded s u := ⟨hs, hsf, hsn, hok, hu, huf, hun, hlen, hcopy⟩
  have hN := inputSamples_length s
  obtain hL | hL := Nat.lt_or_ge L.toNat 250
  · have hv : Decoded u v .none _ _ := h.decoded_pad hcap hodd (Nat.le_of_lt_succ hL)
    have hout := hv.output
    rw [List.length_append, List.length_singleton, bytesAt_succ, hN] at hout
    obtain ⟨hbytes, hextra⟩ := List.append_inj' hout rfl
    refine ⟨hv.stopped, hv.done, fun _ => ⟨hv.code, ?_, hv.consumed, List.singleton_inj.mp hextra, ?_⟩,
      fun hL' => by omega, bytesAt_eq_bytesAt_iff.mp hbytes⟩
    · rw [hv.outLen, List.length_append, hN, List.length_singleton]
    · rw [hv.last, List.getLastD_concat]
  · have hv : Decoded u v .range _ _ := h.decoded_pad_range hcap hodd hL
    have hout := hv.output
    rw [hN] at hout
    exact ⟨hv.stopped, hv.done, fun hL' => by omega,
      fun _ => ⟨hv.code, BitVec.eq_of_toNat_eq (hv.outLen.trans hN), hv.consumed, hv.last.trans h.last_eq.symm⟩,
      bytesAt_eq_bytesAt_iff.mp hout⟩

end Sys2Proof.Machine
end

section
/-! SUPPORT. What a CMD write does as a step (10_state.md R22), and the statements about NOP and the reserved command
(42_interface.md R170, R173; 60_exceptions.md R207). -/

namespace Sys2Proof.Machine

/-! ## A CMD write -/

/-- A step that makes a CMD write takes it off the script and runs its command (R22). -/
theorem step_cmdWrite {s : State} {v : Word} {rest : List Move} (h : s.script = .regWrite 0 32 v :: rest) :
    step s = exec (decodeCommand v) (s.setScript rest) :=
  step_cons h

/-! ## The reserved command while IDLE -/

theorem execReserved_of_idle {s : State} (hi : busy s = false) : execReserved s = .next s.rejectCommand := by
  simp [execReserved, hi]

/-- STATUS after the rejection of a command: DONE, ERROR and ERRCODE 5 (R207). -/
theorem statusWord_rejectCommand_of_idle {s : State} (hi : busy s = false) : statusWord s.rejectCommand = 0x56 := by
  have hb : busy s.rejectCommand = false := hi
  simp [statusWord, hb, errorFlag, errNumber]

/-! ## The statements -/

/-- Settles O10: NOP runs to the same state, and `OP` = 0 selects it whatever bits 31:2 are (`commandByOp`). -/
theorem nopDoesNothing : Obligations.NopDoesNothing := by
  refine fun s => ⟨rfl, fun hi rest hs => ?_⟩
  obtain ⟨hop, -, -, -⟩ := commandByOp hi
  calc step s = exec (decodeCommand (hi ++ (0 : BitVec 2))) (s.setScript rest) := step_cmdWrite hs
    _ = exec .nop (s.setScript rest) := by rw [hop]
    _ = .next (s.setScript rest) := rfl

/-- Settles O11: the reserved command branches on BUSY, and `OP` = 3 selects it whatever bits 31:2 are
(`commandByOp`). -/
theorem reservedRejected : Obligations.ReservedRejected := by
  refine fun s => ⟨fun hf => ?_, fun hf => execReserved_of_busy (busy_iff.mpr hf), fun hi rest hs => ?_⟩
  · have hi : busy s = false := busy_eq_false.mpr hf
    exact ⟨execReserved_of_idle hi, statusWord_rejectCommand_of_idle hi⟩
  · obtain ⟨-, -, -, hop⟩ := commandByOp hi
    calc step s = exec (decodeCommand (hi ++ (3 : BitVec 2))) (s.setScript rest) := step_cmdWrite hs
      _ = exec .reserved (s.setScript rest) := by rw [hop]

end Sys2Proof.Machine
end

section
/-! SUPPORT. The invariant through every move (10_state.md R23, R24, R26, R41 to R45; 20_memory.md R60, R64, R69), and
the statements about it. -/

namespace Sys2Proof.Machine

/-! ## The invariant through the named updates -/

/-- An address register stores bits ADDR_W-1:0 (R24, R26). -/
theorem addressBits_lt (s : State) (v : Word) : (addressBits s v).toNat < 2 ^ s.addrW := by
  rw [addressBits, BitVec.toNat_ofNat]
  exact (Nat.mod_le _ _).trans_lt (Nat.mod_lt _ (Nat.two_pow_pos _))

namespace Inv

variable {s : State}

/-- The script, the data read and the draws are not the invariant's. -/
theorem hostSide (h : Inv s) (l : List Move) (v : Word) (n : Nat) :
    Inv { s with script := l, rdata := v, draws := n } :=
  ⟨h.addrW_range, h.mem_ok, h.addr_bits, h.busy_status, h.error_done, h.busy_buffers, h.busy_launch, h.enc_cursors,
    h.dec_cursors⟩

theorem setScript (h : Inv s) (l : List Move) : Inv (s.setScript l) := h.hostSide l s.rdata s.draws

theorem setMem (h : Inv s) {m : Memory} (hm : Memory.wf m ∧ Memory.within m s.addrW) : Inv (s.setMem m) :=
  ⟨h.addrW_range, hm, h.addr_bits, h.busy_status, h.error_done, h.busy_buffers, h.busy_launch, h.enc_cursors,
    h.dec_cursors⟩

/-- A byte stored below 2^ADDR_W (R60). -/
theorem writeMem (h : Inv s) {a : Nat} (v : Byte) (ha : a < 2 ^ s.addrW) : Inv (s.setMem (Memory.write s.mem a v)) :=
  h.setMem ⟨Memory.wf_write a v h.mem_ok.1, Memory.within_write v h.mem_ok.2 ha⟩

/-- New cursors keep the invariant when they keep the bounds of the running command (R42, R45). -/
theorem setCursors (h : Inv s) (p : Byte) (v : Nibble) {n : NCursor} {c : Word}
    (he : s.fsm = .encRun → c.toNat ≤ s.srcLen.toNat ∧ n.toNat ≤ 2 * s.dstCap.toNat)
    (hd : s.fsm = .decRun → c.toNat ≤ s.dstCap.toNat ∧ n.toNat ≤ 2 * s.srcLen.toNat) :
    Inv { s with prev := p, hold := v, ncur := n, scur := c } :=
  ⟨h.addrW_range, h.mem_ok, h.addr_bits, h.busy_status, h.error_done, h.busy_buffers, h.busy_launch, he, hd⟩

/-- In IDLE only the parameters, the memory, the address registers and STATUS matter. -/
theorem of_idle (h : Inv s) {t : State} (hf : t.fsm = .idle) (hw : t.addrW = s.addrW)
    (hm : Memory.wf t.mem ∧ Memory.within t.mem t.addrW)
    (ha : t.srcAddr.toNat < 2 ^ t.addrW ∧ t.dstAddr.toNat < 2 ^ t.addrW) (hd : t.errCode ≠ .none → t.done = true) :
    Inv t where
  addrW_range := hw ▸ h.addrW_range
  mem_ok := hm
  addr_bits := ha
  busy_status hb := absurd hf hb
  error_done := hd
  busy_buffers hb := absurd hf hb
  busy_launch hb := absurd hf hb
  enc_cursors he := by simp [hf] at he
  dec_cursors he := by simp [hf] at he

/-- The end of a command, with or without an error (R37, R111, R150). -/
theorem endWith (h : Inv s) (e : ErrCode) (o c : Word) (b : BitVec 1) : Inv (s.endWith e o c b) :=
  h.of_idle rfl rfl h.mem_ok h.addr_bits fun _ => rfl

theorem rejectCommand (h : Inv s) (hf : s.fsm = .idle) : Inv s.rejectCommand :=
  h.of_idle hf rfl h.mem_ok h.addr_bits fun _ => rfl

theorem sawEnd (h : Inv s) (hf : s.fsm = .idle) : Inv s.sawEnd :=
  h.of_idle hf rfl h.mem_ok h.addr_bits h.error_done

/-- A start whose operands meet R69 sets the cursors to 0 and notes the buffers (R171, R172). -/
theorem start (h : Inv s) (hr : startRefusal s = none) (f : Fsm) : Inv (s.start f) where
  addrW_range := h.addrW_range
  mem_ok := h.mem_ok
  addr_bits := h.addr_bits
  busy_status _ := ⟨rfl, rfl⟩
  error_done he := absurd rfl he
  busy_buffers _ := hr
  busy_launch _ := ⟨_, rfl, rfl, rfl, rfl, rfl, h.mem_ok⟩
  enc_cursors _ := by simp
  dec_cursors _ := by simp

/-- The output buffer of a running command lies in memory (R69). -/
theorem output_fits (h : Inv s) (hf : s.fsm ≠ .idle) : s.dstAddr.toNat + s.dstCap.toNat ≤ 2 ^ s.addrW := by
  obtain ⟨-, hd, -, -, -⟩ := startRefusal_eq_none.mp (h.busy_buffers hf)
  exact hd

/-- The input buffer of a running command lies in memory (R69). -/
theorem input_fits (h : Inv s) (hf : s.fsm ≠ .idle) : s.srcAddr.toNat + s.srcLen.toNat ≤ 2 ^ s.addrW := by
  obtain ⟨hs, -, -, -, -⟩ := startRefusal_eq_none.mp (h.busy_buffers hf)
  exact hs

end Inv

/-! ## An engine step -/

/-- When DECODE goes on to a code word (R132, R133). -/
theorem decodeEnds_eq_false {s : State} :
    decodeEnds s = false ↔ s.scur ≠ s.dstCap ∧ s.ncur.toNat < 2 * s.srcLen.toNat := by
  rw [← Bool.not_eq_true, decodeEnds_iff, not_or, not_le]

theorem finishCommand_keeps_inv {s t : State} {e : ErrCode} (h : Inv s) (ht : finishCommand e s = .next t) : Inv t := by
  obtain ⟨-, -, rfl⟩ | ⟨-, -, ha, rfl⟩ | ⟨-, rfl⟩ := finishCommand_cases ht
  · exact h.endWith ..
  · exact (h.writeMem _ ha).endWith ..
  · exact h.endWith ..

/-- Memory as the emission of nibbles leaves it is in order (R60, R105). -/
theorem emitNibbles_mem_ok {c : List Nibble} {s u : State} (hu : emitNibbles c s = some u)
    (hn : s.ncur.toNat + c.length < 2 ^ 33) (h : Memory.wf s.mem ∧ Memory.within s.mem s.addrW) :
    Memory.wf u.mem ∧ Memory.within u.mem s.addrW := by
  obtain ⟨m, v, rfl, -, hwf, hin⟩ := emitNibbles_cases hu hn
  exact ⟨hwf h.1, fun c' hc' => (hin c' hc').elim id (h.2 c')⟩

theorem engineStep_keeps_inv {s t : State} (h : Inv s) (ht : engineStep s = .next t) : Inv t := by
  obtain ⟨-, rfl⟩ | ⟨-, e, hfin⟩ | ⟨hf, hne, -, c, u, -, hc, hu, rfl⟩ | ⟨hf, he, len, v, -, -, hlen, ha, rfl⟩ :=
    engineStep_cases ht
  · exact h
  · exact finishCommand_keeps_inv h hfin
  · have hlt := s.dstCap.isLt
    have hm := emitNibbles_mem_ok hu (by omega) h.mem_ok
    obtain ⟨m, w, rfl, -⟩ := emitNibbles_cases hu (by omega)
    obtain ⟨hsc, hlt'⟩ := scur_succ_toNat (h.enc_cursors hf).1 hne
    refine (h.setMem hm).setCursors _ w (fun _ => ?_) (fun hd => by simp [hf] at hd)
    simp only [State.setMem_srcLen, State.setMem_dstCap]
    rw [hsc, ncur_add_toNat (by omega)]
    omega
  · have hlt := s.srcLen.isLt
    obtain ⟨hne, -⟩ := decodeEnds_eq_false.mp he
    obtain ⟨hsc, hlt'⟩ := scur_succ_toNat (h.dec_cursors hf).1 hne
    refine (h.writeMem v ha).setCursors v s.hold (fun hd => by simp [hf] at hd) (fun _ => ?_)
    simp only [State.setMem_srcLen, State.setMem_dstCap]
    refine ⟨?_, ?_⟩
    · show (s.scur + 1).toNat ≤ _
      omega
    · show (s.ncur + BitVec.ofNat 33 len).toNat ≤ _
      rw [ncur_add_toNat (by omega)]
      omega

/-! ## The host's moves -/

theorem exec_decodeCommand_keeps_inv {s t : State} (h : Inv s) {v : Word} (ht : exec (decodeCommand v) s = .next t) :
    Inv t := by
  have hstart : ∀ f, startCommand f s = .next t → Inv t := fun f hs => by
    obtain ⟨-, rfl⟩ | ⟨-, hr, rfl⟩ := startCommand_cases hs
    · exact h
    · exact h.start hr f
  obtain hc | hc | hc | hc := decodeCommand_cases v <;> rw [hc] at ht
  · cases ht; exact h
  · exact hstart _ ht
  · exact hstart _ ht
  · cases hb : busy s with
    | true => cases (execReserved_of_busy hb).symm.trans ht; exact h
    | false => cases (execReserved_of_idle hb).symm.trans ht; exact h.rejectCommand (busy_eq_false.mp hb)

theorem writeRegister_keeps_inv {s : State} (h : Inv s) (hf : s.fsm = .idle) (offset : Nat) (v : Word) :
    Inv (writeRegister s offset v) := by
  rw [writeRegister_eq]
  refine h.of_idle hf rfl h.mem_ok ⟨?_, ?_⟩ h.error_done
  · show (if offset = 0x08 then addressBits s v else s.srcAddr).toNat < _
    split
    · exact addressBits_lt s v
    · exact h.addr_bits.1
  · show (if offset = 0x10 then addressBits s v else s.dstAddr).toNat < _
    split
    · exact addressBits_lt s v
    · exact h.addr_bits.2

theorem regWrite_keeps_inv {s t : State} {offset bits : Nat} {v : Word} (h : Inv s)
    (ht : regWrite offset bits v s = .next t) : Inv t := by
  unfold regWrite at ht
  split_ifs at ht with hg hc hb
  · exact exec_decodeCommand_keeps_inv h ht
  · cases ht; exact h
  · cases ht; exact writeRegister_keeps_inv h (busy_eq_false.mp (by simpa using hb)) offset v

theorem statusSeen_keeps_inv {s : State} (h : Inv s) : Inv (statusSeen s) := by
  unfold statusSeen
  split
  · exact h
  · next hb => exact h.sawEnd (busy_eq_false.mp (by simpa using hb))

theorem regRead_keeps_inv {s t : State} {offset bits : Nat} (h : Inv s) (ht : regRead offset bits s = .next t) :
    Inv t := by
  unfold regRead at ht
  split_ifs at ht <;> cases ht
  · exact h.hostSide s.script _ _
  · exact statusSeen_keeps_inv (h.hostSide s.script _ s.draws)
  · exact h.hostSide s.script _ s.draws

theorem hostWrite_keeps_inv {s t : State} {a : Nat} {v : Byte} (h : Inv s) (ht : hostWrite a v s = .next t) :
    Inv t := by
  unfold hostWrite at ht
  split_ifs at ht with _ _ ha
  cases ht
  exact h.writeMem v (by simpa [inMemory] using ha)

theorem hostRead_keeps_inv {s t : State} {a : Nat} (h : Inv s) (ht : hostRead a s = .next t) : Inv t := by
  unfold hostRead at ht
  split_ifs at ht <;> cases ht
  · exact h.hostSide s.script _ _
  · exact h.hostSide s.script _ s.draws

/-- Memory after a reset is in order: only output bytes, which lie in memory, are overwritten (R69, R231). -/
theorem memAfterReset_ok {s : State} (h : Inv s) (hf : s.fsm ≠ .idle) :
    Memory.wf (memAfterReset s) ∧ Memory.within (memAfterReset s) s.addrW := by
  have hfit := h.output_fits hf
  refine ⟨Memory.wf_overwrite _ _ h.mem_ok.1, fun c hc => ?_⟩
  obtain ht | hm := Memory.mem_of_mem_overwrite hc
  · obtain ⟨-, hout⟩ := List.mem_filter.mp ht
    obtain ⟨-, hlt⟩ := inBuffer_iff.mp hout
    omega
  · exact h.mem_ok.2 c hm

theorem resetCore_inv {s : State} (h : Inv s) : Inv (resetCore s) := by
  refine h.of_idle rfl rfl ?_ (by simp [resetCore, State.resetWith]) fun he => absurd rfl he
  show Memory.wf (if busy s then memAfterReset s else s.mem) ∧
    Memory.within (if busy s then memAfterReset s else s.mem) s.addrW
  split
  · next hb => exact memAfterReset_ok h (busy_iff.mp hb)
  · exact h.mem_ok

theorem makeMove_keeps_inv {m : Move} {s t : State} (h : Inv s) (ht : makeMove m s = .next t) : Inv t := by
  cases m with
  | engine => exact engineStep_keeps_inv h ht
  | regWrite offset bits v => exact regWrite_keeps_inv h ht
  | regRead offset bits => exact regRead_keeps_inv h ht
  | poll =>
    simp only [makeMove] at ht
    split at ht
    · exact engineStep_keeps_inv (h.setScript _) ht
    · exact regRead_keeps_inv h ht
  | memWrite a v => exact hostWrite_keeps_inv h ht
  | memRead a => exact hostRead_keeps_inv h ht
  | reset => cases ht; exact resetCore_inv h

/-- Settles O47: a step is an engine step or a scripted move, and each of them keeps the invariant. -/
theorem stepKeepsInv : Obligations.StepKeepsInv := by
  intro s t h ht
  cases hs : s.script with
  | nil => exact engineStep_keeps_inv h ((step_nil hs).symm.trans ht)
  | cons m rest => exact makeMove_keeps_inv (h.setScript rest) ((step_cons hs).symm.trans ht)

/-- Settles O46: the reset state is IDLE with empty memory, address registers 0 and no error. -/
theorem resetInv : Obligations.ResetInv := by
  have hinv : ∀ w r, 1 ≤ w → w ≤ 32 → Inv (State.resetWith w r) := fun w r hlo hhi =>
    { addrW_range := ⟨hlo, hhi⟩
      mem_ok := ⟨Memory.wf_reset w r, fun c hc => absurd hc List.not_mem_nil⟩
      addr_bits := by simp [State.resetWith]
      busy_status := fun hb => absurd rfl hb
      error_done := fun he => absurd rfl he
      busy_buffers := fun hb => absurd rfl hb
      busy_launch := fun hb => absurd rfl hb
      enc_cursors := fun hf => nomatch hf
      dec_cursors := fun hf => nomatch hf }
  exact ⟨hinv, hinv _ _ (by decide) (by decide)⟩

end Sys2Proof.Machine
end

section
/-! SUPPORT. The engine of a machine that meets the invariant: it never stops, writes only output, and ends its command
(20_memory.md R64, R69, R71; 40_encoder.md R112; 41_decoder.md R151). -/

namespace Sys2Proof.Machine

/-! ## Where the shared steps succeed -/

/-- With the bounds of the cursor the byte of a held nibble lies in the output buffer (R42, R110). -/
theorem Inv.packAddr_lt {s : State} (h : Inv s) (hf : s.fsm = .encRun) (ho : s.ncur.toNat % 2 = 1) :
    packAddr s < s.dstAddr.toNat + s.dstCap.toNat := by
  have hn := (h.enc_cursors hf).2
  unfold packAddr
  omega

theorem Inv.finishCommand_succeeds {s : State} (h : Inv s) (hf : s.fsm ≠ .idle) (e : ErrCode) :
    ∃ t, finishCommand e s = .next t := by
  cases hs : s.fsm with
  | idle => exact absurd hs hf
  | encRun =>
    obtain he | ho := Nat.mod_two_eq_zero_or_one s.ncur.toNat
    · exact ⟨_, finishCommand_enc_even e hs he⟩
    · exact ⟨_, finishCommand_enc_odd e hs ho ((h.packAddr_lt hs ho).trans_le (h.output_fits hf))⟩
  | decRun => exact ⟨_, finishCommand_dec e hs⟩

theorem Inv.emitWord_succeeds {s : State} (h : Inv s) (hf : s.fsm = .encRun) (hne : s.scur ≠ s.srcLen)
    (ha : inputAddr s < 2 ^ s.addrW) (c : List Nibble) : ∃ t, emitWord c s = .next t := by
  have hb : s.fsm ≠ .idle := by simp [hf]
  obtain hc | hc := Nat.lt_or_ge (2 * s.dstCap.toNat) (s.ncur.toNat + c.length)
  · rw [emitWord_overflows hf hne ha hc]
    exact h.finishCommand_succeeds hb _
  · have hfit := h.output_fits hb
    have hlt := s.dstCap.isLt
    obtain ⟨u, hu⟩ := emitNibbles_succeeds (c := c) (s := s) (by omega) (by omega)
    exact ⟨_, emitWord_commits hf hne ha hc hu⟩

theorem Inv.withWord_succeeds {s : State} (h : Inv s) (hf : s.fsm = .decRun) (need : Nat)
    {k : State → Host.Outcome State Fault Refusal} (hk : decodeEnds s = false → ∃ t, k s = .next t) :
    ∃ t, withWord need k s = .next t := by
  have hfin := h.finishCommand_succeeds (s := s) (by simp [hf])
  unfold withWord
  rw [if_neg (by simp [hf])]
  split_ifs with he
  · exact hfin _
  · exact hfin _
  · exact hk (by simpa using he)

/-- The sample cursor of a running DECODE stands in the output buffer (R45, R148). -/
theorem Inv.sampleAddr_lt {s : State} (h : Inv s) (hf : s.fsm = .decRun) (he : decodeEnds s = false) :
    sampleAddr s < s.dstAddr.toNat + s.dstCap.toNat := by
  obtain ⟨hne, -⟩ := decodeEnds_eq_false.mp he
  have := (scur_succ_toNat (h.dec_cursors hf).1 hne).2
  unfold sampleAddr
  omega

theorem Inv.exec_decoder_word_succeeds {s : State} (h : Inv s) (hf : s.fsm = .decRun) {i : Instr}
    (hi : 0 < inspectedNibbles i) : ∃ t, exec i s = .next t := by
  have hb : s.fsm ≠ .idle := by simp [hf]
  obtain ⟨d, he⟩ | he := exec_decoder_word hi s <;> rw [he]
  · refine h.withWord_succeeds hf _ fun hend => ?_
    have ha := (h.sampleAddr_lt hf hend).trans_le (h.output_fits hb)
    simp only [writeSample, memWrite_of_lt _ ha]
    split
    · exact ⟨_, rfl⟩
    · exact h.finishCommand_succeeds hb _
  · exact h.withWord_succeeds hf 2 fun _ => h.finishCommand_succeeds hb _

/-- Whatever the decoder reads is a code word of its own (R85). -/
theorem inspectedNibbles_decodeWindow_pos (w : Window) : 0 < inspectedNibbles (decodeWindow w) := by
  obtain ⟨_, e⟩ | ⟨_, e⟩ | ⟨_, e⟩ | ⟨_, _, e⟩ | ⟨_, e⟩ | ⟨_, _, e⟩ := decodeWindow_cases w <;> rw [e] <;>
    exact Nat.succ_pos _

/-- The encoder reads its sample inside the input buffer (R64, R101). -/
theorem Inv.encodeStep_succeeds {s : State} (h : Inv s) (hf : s.fsm = .encRun) : ∃ t, encodeStep s = .next t := by
  have hb : s.fsm ≠ .idle := by simp [hf]
  unfold encodeStep
  split
  · exact h.finishCommand_succeeds hb _
  · next he =>
    have hne : s.scur ≠ s.srcLen := by simpa [encodeEnds] using he
    have hlt := (scur_succ_toNat (h.enc_cursors hf).1 hne).2
    have hfit := h.input_fits hb
    have ha : inputAddr s < 2 ^ s.addrW := by unfold inputAddr; omega
    simp only [memRead_of_lt ha, exec_classify]
    exact h.emitWord_succeeds hf hne ha _

/-- The decoder inspects nibbles inside the input buffer (R64, R131). -/
theorem Inv.decodeStep_succeeds {s : State} (h : Inv s) (hf : s.fsm = .decRun) : ∃ t, decodeStep s = .next t := by
  have hb : s.fsm ≠ .idle := by simp [hf]
  unfold decodeStep
  split
  · exact h.finishCommand_succeeds hb _
  · next he =>
    obtain ⟨-, hn⟩ := decodeEnds_eq_false.mp (by simpa using he)
    obtain ⟨ns, hns⟩ := inspectWord_succeeds (h.input_fits hb) hn
    simp only [hns]
    exact h.exec_decoder_word_succeeds hf (inspectedNibbles_decodeWindow_pos _)

/-- Settles O48: each test of an engine step leads to the end of the command or to an access inside a buffer. -/
theorem engineNeverStops : Obligations.EngineNeverStops := by
  intro s h
  unfold engineStep
  split
  · exact ⟨s, rfl⟩
  · next hf => exact h.encodeStep_succeeds hf
  · next hf => exact h.decodeStep_succeeds hf

/-! ## What the engine writes -/

/-- The bytes a finish writes: at most that of a held nibble (R110). -/
theorem finishCommand_mem {s t : State} {e : ErrCode} (ht : finishCommand e s = .next t) {a : Nat}
    (ha : s.fsm = .encRun → s.ncur.toNat % 2 = 1 → a ≠ packAddr s) : Memory.read t.mem a = Memory.read s.mem a := by
  obtain ⟨-, -, rfl⟩ | ⟨hf, ho, -, rfl⟩ | ⟨-, rfl⟩ := finishCommand_cases ht
  · rfl
  · exact Memory.read_write_other (ha hf ho)
  · rfl

/-- No engine step writes outside the output buffer (R64). -/
theorem Inv.engineStep_mem {s t : State} (h : Inv s) (ht : engineStep s = .next t) {a : Nat}
    (ha : a < s.dstAddr.toNat ∨ s.dstAddr.toNat + s.dstCap.toNat ≤ a) :
    Memory.read t.mem a = Memory.read s.mem a := by
  obtain ⟨-, rfl⟩ | ⟨-, e, hfin⟩ | ⟨hf, -, -, c, u, -, hc, hu, rfl⟩ | ⟨hf, he, len, v, -, -, -, -, rfl⟩ :=
    engineStep_cases ht
  · rfl
  · refine finishCommand_mem hfin fun hf ho => ?_
    have := h.packAddr_lt hf ho
    unfold packAddr at this ⊢
    omega
  · have := s.dstCap.isLt
    obtain ⟨m, w, rfl, hm, -⟩ := emitNibbles_cases hu (by omega)
    exact hm a (by unfold packAddr; omega)
  · have := h.sampleAddr_lt hf he
    exact Memory.read_write_other (by unfold sampleAddr at this ⊢; omega)

/-- Settles O49: the buffers of a running command do not overlap, so the input lies outside the output. -/
theorem engineWritesOnlyOutput : Obligations.EngineWritesOnlyOutput := by
  intro s t h ht
  obtain ⟨-, -, hsa, hsl, hda, hdc, -⟩ := engineStep_frame ht
  refine ⟨hsa, hsl, hda, hdc, fun a => h.engineStep_mem ht, fun hb i hi => h.engineStep_mem ht ?_⟩
  obtain ⟨-, -, hdis, -, -⟩ := startRefusal_eq_none.mp (h.busy_buffers hb)
  rw [disjoint_iff] at hdis
  omega

/-! ## The end of a running command -/

/-- After an engine step the command has ended, or one step less is left. -/
theorem Inv.engineStep_progress {s t : State} (h : Inv s) (hb : s.fsm ≠ .idle) (ht : engineStep s = .next t) :
    (t.fsm = .idle ∧ t.done = true) ∨ (t.fsm ≠ .idle ∧ stepsLeft t + 1 = stepsLeft s) := by
  obtain ⟨hf, -⟩ | ⟨-, e, hfin⟩ | ⟨hf, hne, -, c, u, -, hc, hu, rfl⟩ | ⟨hf, he, len, v, -, -, -, -, rfl⟩ :=
    engineStep_cases ht
  · exact absurd hf hb
  · obtain ⟨-, -, rfl⟩ | ⟨-, -, -, rfl⟩ | ⟨-, rfl⟩ := finishCommand_cases hfin <;> exact .inl ⟨rfl, rfl⟩
  · have := s.dstCap.isLt
    obtain ⟨m, w, rfl, -⟩ := emitNibbles_cases hu (by omega)
    obtain ⟨hsc, hlt⟩ := scur_succ_toNat (h.enc_cursors hf).1 hne
    refine .inr ⟨hb, ?_⟩
    simp only [stepsLeft, State.commit_fsm, State.commit_srcLen, State.commit_scur, hf, hsc]
    omega
  · obtain ⟨hne, -⟩ := decodeEnds_eq_false.mp he
    obtain ⟨hsc, hlt⟩ := scur_succ_toNat (h.dec_cursors hf).1 hne
    refine .inr ⟨hb, ?_⟩
    simp only [stepsLeft, State.advance_fsm, State.commit_fsm, State.setMem_fsm, State.advance_dstCap,
      State.commit_dstCap, State.setMem_dstCap, State.advance_scur, State.commit_scur, State.setMem_scur, hf, hsc]
    omega

theorem stepsLeft_pos {s : State} (hb : s.fsm ≠ .idle) : 0 < stepsLeft s := by
  unfold stepsLeft
  split
  · next hf => exact absurd hf hb
  · exact Nat.succ_pos _
  · exact Nat.succ_pos _

/-- The engine alone ends the command in the steps that are left (R112, R151). -/
theorem Inv.runEngine_ends {s : State} (h : Inv s) (hb : s.fsm ≠ .idle) {n : Nat} (hn : stepsLeft s ≤ n) :
    (runEngine n s).fsm = .idle ∧ (runEngine n s).done = true := by
  induction n generalizing s with
  | zero => exact absurd (stepsLeft_pos hb) (not_lt.mpr hn)
  | succ n ih =>
    obtain ⟨t, ht⟩ := engineNeverStops s h
    rw [runEngine_succ_of_next hb ht]
    obtain ⟨hf, hd⟩ | ⟨hf, hsteps⟩ := h.engineStep_progress hb ht
    · rw [runEngine_of_idle hf]
      exact ⟨hf, hd⟩
    · exact ih (engineStep_keeps_inv h ht) hf (by omega)

/-- Settles O50: the steps left bound the run (`Inv.runEngine_ends`). -/
theorem commandEnds : Obligations.CommandEnds := fun _ h hb => h.runEngine_ends hb le_rfl

end Sys2Proof.Machine
end

section
/-! SUPPORT. Encoding and decoding in the three languages (30_encoding.md R80 to R87, R90; 40_encoder.md R102 to R104,
R109), and the statements about them. -/

namespace Sys2Proof.Machine

/-! ## Every encoding decodes -/

/-- A code word alone decodes to its instruction (R85). -/
theorem decode_codeWord {i : Instr} (hi : 0 < inspectedNibbles i) (hwf : wellFormed i = true) :
    decode (.codeWord (wordNibbles i)) = .ok i := by
  have h := decodeNibbles_wordNibbles hi hwf []
  rw [List.append_nil] at h
  simp [decode, h]

@[simp] theorem signOf_signMarker (g : Sign) : signOf (signMarker g) = some g := by cases g <;> rfl

/-- The nibbles of a well-formed emission decode as that emission (R86, R89). -/
theorem decodeEmission_wordNibbles {i : Instr} (he : encode i = .emission (wordNibbles i))
    (hwf : wellFormed i = true) : decodeEmission (wordNibbles i) = .ok i := by
  cases i with
  | encShort v =>
    have hv : v.toNat ≤ 0xC := by simpa [wellFormed, shortNibble] using hwf
    simp [wordNibbles, decodeEmission, hv]
  | encMid g m =>
    have hm : 1 ≤ m.toNat ∧ m.toNat ≤ 0xD := by simpa [wellFormed, emittedMid] using hwf
    simp [wordNibbles, decodeEmission, hm]
  | encEsc g lo hi =>
    have hmag : 20 ≤ lo.toNat + 16 * hi.toNat := by simpa [wellFormed, emittedEsc] using hwf
    simp [wordNibbles, decodeEmission, escapeMarker, hmag]
  | _ => cases he

/-- Settles O1: by language; a code word by its parse, an emission by its nibbles, a command by its `OP`. -/
theorem decodeEncode : Obligations.DecodeEncode := by
  intro i hwf
  cases i with
  | decShort | decMidNeg | decMidPos | decEscNeg | decEscBad | decEscPos => exact decode_codeWord (Nat.succ_pos _) hwf
  | encShort | encMid | encEsc => exact decodeEmission_wordNibbles rfl hwf
  | nop | startEncode | startDecode | reserved => rfl

/-- Settles O5: by evaluation. -/
theorem decodeWords : Obligations.DecodeWords := by
  unfold Obligations.DecodeWords
  decide

/-! ## A run of nibbles parses in one way -/

theorem take_eq_map_nibbleOr0 {ns : List Nibble} {k : Nat} (hk : k ≤ ns.length) :
    ns.take k = (List.range k).map (nibbleOr0 ns) := by
  refine List.ext_getElem (by simpa using hk) fun j hj _ => ?_
  rw [List.length_take, lt_min_iff] at hj
  simp [nibbleOr0, hj.2]

/-- A nibble that is no short nibble and no sign marker is the escape marker (R80). -/
theorem eq_escapeMarker : ∀ n : Nibble, ¬n.toNat ≤ 0xC → n ≠ 0xD → n ≠ 0xE → n = 0xF := by decide

/-- What the decoder reads from a window is well formed, and its nibbles are the first ones of the window (R85). -/
theorem decodeWindow_reads (ns : List Nibble) :
    wellFormed (decodeWindow (windowOf ns)) = true ∧
      (List.range (inspectedNibbles (decodeWindow (windowOf ns)))).map (nibbleOr0 ns) =
        wordNibbles (decodeWindow (windowOf ns)) := by
  simp (disch := decide) only [decodeWindow, windowNibble_windowOf]
  split_ifs with hs hD hE h1 h1'
  · exact ⟨by simpa [wellFormed, shortNibble] using hs, rfl⟩
  · exact ⟨rfl, by rw [wordNibbles, ← hD]; rfl⟩
  · exact ⟨rfl, by rw [wordNibbles, ← hE]; rfl⟩
  · exact ⟨rfl, by rw [wordNibbles, ← h1, ← eq_escapeMarker _ hs hD hE]; rfl⟩
  · exact ⟨rfl, by rw [wordNibbles, ← h1', ← eq_escapeMarker _ hs hD hE]; rfl⟩
  · exact ⟨by simpa [wellFormed, badEscapeNibble] using And.intro h1 h1',
      by rw [wordNibbles, ← eq_escapeMarker _ hs hD hE]; rfl⟩

/-- Settles O3: left to right the nibbles read are the word's; right to left it is `decodeNibbles_wordNibbles`. -/
theorem parseUnique : Obligations.ParseUnique := by
  intro ns rest i
  constructor
  · intro h
    unfold decodeNibbles at h
    simp only at h
    split_ifs at h with hne hlen
    obtain ⟨rfl, rfl⟩ : decodeWindow (windowOf ns) = i ∧ _ = rest := by simpa using h
    obtain ⟨hwf, hword⟩ := decodeWindow_reads ns
    exact ⟨inspectedNibbles_decodeWindow_pos _, hwf, by
      rw [← hword, ← take_eq_map_nibbleOr0 (not_lt.mp hlen), List.take_append_drop]⟩
  · rintro ⟨hi, hwf, rfl⟩
    exact decodeNibbles_wordNibbles hi hwf rest

/-! ## Every window has one row -/

/-- A mask of the low byte sees only the low byte (R81). -/
theorem setWidth_and_of_byteMask (w : Window) {m : Word} (hm : 0xFF#32 &&& m = m) :
    w.setWidth 32 &&& m = (w.setWidth 8).setWidth 32 &&& m := by
  have hlow : w.setWidth 32 &&& 0xFF#32 = (w.setWidth 8).setWidth 32 := by
    refine BitVec.eq_of_toNat_eq ?_
    rw [BitVec.toNat_and, show (0xFF#32).toNat = 2 ^ 8 - 1 from rfl, Nat.and_two_pow_sub_one_eq_mod]
    simp only [BitVec.toNat_setWidth]
    omega
  calc w.setWidth 32 &&& m = w.setWidth 32 &&& (0xFF#32 &&& m) := by rw [hm]
    _ = (w.setWidth 8).setWidth 32 &&& m := by rw [← BitVec.and_assoc, hlow]

theorem decodeRows_byteMask : ∀ r ∈ decodeRows, 0xFF#32 &&& r.mask = r.mask := by decide

theorem windowNibble_low (w : Window) {j : Nat} (hj : j < 2) :
    windowNibble ((w.setWidth 8).setWidth 16) j = windowNibble w j := by
  refine BitVec.eq_of_toNat_eq ?_
  simp only [windowNibble, BitVec.extractLsb'_toNat, BitVec.toNat_setWidth, Nat.shiftRight_eq_div_pow]
  interval_cases j <;> omega

/-- The row of the word at a window depends on its two low nibbles (R81, R85). -/
theorem rowOf_decodeWindow_low (w : Window) :
    rowOf (decodeWindow ((w.setWidth 8).setWidth 16)) = rowOf (decodeWindow w) := by
  unfold decodeWindow
  simp (disch := decide) only [windowNibble_low]
  split_ifs <;> rfl

theorem decodeRows_filter_byte : ∀ b : BitVec 8,
    decodeRows.filter (fun r => rowMatches r (b.setWidth 32)) = [rowOf (decodeWindow (b.setWidth 16))] := by
  decide +kernel

/-- Settles O2: rows and decoder see only the low byte of the window, and each byte has its row. -/
theorem decodeRowsPartition : Obligations.DecodeRowsPartition := by
  intro w
  rw [← rowOf_decodeWindow_low, ← decodeRows_filter_byte]
  refine List.filter_congr fun r hr => ?_
  simp only [rowMatches, setWidth_and_of_byteMask w (decodeRows_byteMask r hr)]

/-! ## What Classify gives -/

/-- Classify gives an emission of the encoder, within the encoder's bounds (R86, R109, R114). -/
theorem classify_emission {d : Int} (hlo : -255 ≤ d) (hhi : d ≤ 255) :
    encode (classify d) = .emission (wordNibbles (classify d)) ∧ wellFormed (classify d) = true ∧
      (wordNibbles (classify d)).length = if d.natAbs ≤ 6 then 1 else if d.natAbs ≤ 19 then 2 else 4 := by
  unfold classify
  simp only
  split_ifs with h6 h19
  · refine ⟨rfl, ?_, rfl⟩
    simp only [wellFormed, shortNibble, BitVec.toNat_ofInt, decide_eq_true_eq]
    omega
  · refine ⟨rfl, ?_, rfl⟩
    simp only [wellFormed, emittedMid, BitVec.toNat_ofNat, Bool.and_eq_true, decide_eq_true_eq]
    omega
  · refine ⟨rfl, ?_, rfl⟩
    simp only [wellFormed, emittedEsc, BitVec.toNat_ofNat, decide_eq_true_eq]
    omega

theorem delta_bounds (p smp : Byte) : -255 ≤ delta p smp ∧ delta p smp ≤ 255 := by
  unfold delta
  omega

/-- Settles O6: within the bounds of a delta Classify gives a well-formed emission, whose nibbles decode as it. -/
theorem classifyEmits : Obligations.ClassifyEmits := by
  intro p smp
  obtain ⟨hlo, hhi⟩ := delta_bounds p smp
  obtain ⟨he, hwf, hlen⟩ := classify_emission hlo hhi
  exact ⟨hlo, hhi, hwf, decodeEmission_wordNibbles he hwf, hlen⟩

end Sys2Proof.Machine
end

section
/-! SUPPORT. What a step runs, and the code words of the decoder (41_decoder.md R131 to R150; 42_interface.md R178), and
the statements about them. -/

namespace Sys2Proof.Machine

/-! ## A step runs the decoded instruction -/

/-- In DEC_RUN with a word at the cursor the engine runs it (R131). -/
theorem engineStep_inspected {s : State} {ns : List Nibble} (hf : s.fsm = .decRun) (he : decodeEnds s = false)
    (hns : inspectWord s = some ns) : engineStep s = exec (decodeWindow (windowOf ns)) s := by
  simp [engineStep, hf, decodeStep, he, hns]

/-- In ENC_RUN with samples left the engine runs the emission of the sample at the cursor (R101, R109). -/
theorem engineStep_classified {s : State} (hf : s.fsm = .encRun) (hne : s.scur ≠ s.srcLen)
    (ha : inputAddr s < 2 ^ s.addrW) :
    engineStep s = exec (classify (delta s.prev (Memory.read s.mem (inputAddr s)))) s := by
  simp [engineStep, hf, encodeStep, encodeEnds, hne, memRead_of_lt ha]

/-- Settles O8: an engine turn is an engine step (`step_of_engineTurn`), whose branch the run state selects. -/
theorem stepRunsInstruction : Obligations.StepRunsInstruction := by
  refine ⟨fun s u hu => ?_, fun s rest hs => step_cons hs, fun s v rest hs => step_cmdWrite hs⟩
  have hstep := step_of_engineTurn hu
  refine ⟨hstep, fun hf => ?_, fun ns hf hne hn hns => ?_, fun hf hne ha => ?_⟩
  · simp [hstep, engineStep, hf]
  · exact hstep.trans (engineStep_inspected hf (decodeEnds_eq_false.mpr ⟨hne, hn⟩) hns)
  · exact hstep.trans (engineStep_classified hf hne ha)

/-! ## The nibbles the decoder inspects -/

theorem nibbleAt_eq_some {s : State} {k : Nat} {v : Nibble} (h : nibbleAt s k = some v) :
    v = memNibble s.mem s.srcAddr.toNat k := by
  obtain ⟨b, hb, rfl⟩ := Option.map_eq_some_iff.mp h
  obtain ⟨-, rfl⟩ := memRead_eq_some.mp hb
  rfl

/-- Everything the inspection of a word can give (R131, R149): the first nibble of the stream, the first two or the
first four, by the marker and by what is available. -/
theorem inspectWord_cases {s : State} {ns : List Nibble} (h : inspectWord s = some ns) :
    holdsNibbles s.mem s.srcAddr.toNat s.ncur.toNat ns ∧
    ((ns.length = 1 ∧ ((nibbleOr0 ns 0).toNat ≤ 0xC ∨ 2 * s.srcLen.toNat ≤ s.ncur.toNat + 1)) ∨
     (ns.length = 2 ∧ 0xC < (nibbleOr0 ns 0).toNat ∧ s.ncur.toNat + 1 < 2 * s.srcLen.toNat ∧
       (nibbleOr0 ns 0 ≠ 0xF ∨ (nibbleOr0 ns 1 ≠ 0xD ∧ nibbleOr0 ns 1 ≠ 0xE) ∨
         2 * s.srcLen.toNat ≤ s.ncur.toNat + 3)) ∨
     (ns.length = 4 ∧ nibbleOr0 ns 0 = 0xF ∧ (nibbleOr0 ns 1 = 0xD ∨ nibbleOr0 ns 1 = 0xE) ∧
       s.ncur.toNat + 3 < 2 * s.srcLen.toNat)) := by
  unfold inspectWord at h
  split at h
  · cases h
  · next n0 h0 =>
    obtain rfl := nibbleAt_eq_some h0
    split at h
    · next hone =>
      cases h
      exact ⟨by simp [holdsNibbles_cons, holdsNibbles_nil], .inl ⟨rfl, by simpa [available, nibbleOr0] using hone⟩⟩
    · next hone =>
      obtain ⟨hmark, hav⟩ := not_or.mp hone
      have hav1 : s.ncur.toNat + 1 < 2 * s.srcLen.toNat := by simpa [available] using hav
      split at h
      · cases h
      · next n1 h1 =>
        obtain rfl := nibbleAt_eq_some h1
        split at h
        · next htwo =>
          cases h
          exact ⟨by simp [holdsNibbles_cons, holdsNibbles_nil],
            .inr (.inl ⟨rfl, not_le.mp hmark, hav1, by simpa [available, nibbleOr0] using htwo⟩)⟩
        · next htwo =>
          obtain ⟨hF, hsgn, hav3⟩ : _ ∧ _ ∧ _ := by simpa only [not_or] using htwo
          split at h
          · next n2 n3 h2 h3 =>
            obtain rfl := nibbleAt_eq_some h2
            obtain rfl := nibbleAt_eq_some h3
            cases h
            exact ⟨by simp [holdsNibbles_cons, holdsNibbles_nil],
              .inr (.inr ⟨rfl, not_not.mp hF, by simpa [or_iff_not_and_not, nibbleOr0] using hsgn,
                by simpa [available] using hav3⟩)⟩
          · cases h

/-- How many nibbles a window is inspected by, from its first two (R85, R87). -/
theorem inspectedNibbles_decodeWindow (ns : List Nibble) :
    inspectedNibbles (decodeWindow (windowOf ns)) =
      if (nibbleOr0 ns 0).toNat ≤ 0xC then 1
      else if nibbleOr0 ns 0 = 0xF ∧ (nibbleOr0 ns 1 = 0xD ∨ nibbleOr0 ns 1 = 0xE) then 4 else 2 := by
  simp (disch := decide) only [decodeWindow, windowNibble_windowOf]
  by_cases hs : (nibbleOr0 ns 0).toNat ≤ 0xC
  · simp [hs, inspectedNibbles]
  by_cases hmark : nibbleOr0 ns 0 = 0xD ∨ nibbleOr0 ns 0 = 0xE
  · obtain h | h := hmark <;> simp [h, inspectedNibbles]
  obtain ⟨hD, hE⟩ := not_or.mp hmark
  have hF := eq_escapeMarker _ hs hD hE
  by_cases h1 : nibbleOr0 ns 1 = 0xD
  · simp [hF, h1, inspectedNibbles]
  by_cases h1' : nibbleOr0 ns 1 = 0xE
  · simp [hF, h1', inspectedNibbles]
  rw [if_neg hs, if_neg hs, if_neg hD, if_neg hE, if_neg h1, if_neg h1', if_neg fun h => h.2.elim h1 h1']
  rfl

/-- Settles O9: by the three lengths of an inspection (`inspectWord_cases`). -/
theorem inspectsOnlyTheWord : Obligations.InspectsOnlyTheWord := by
  intro s ns hn hns
  obtain ⟨hheld, h⟩ := inspectWord_cases hns
  refine ⟨fun j hj => ⟨by omega, (hheld j hj).symm⟩, ?_⟩
  rw [inspectedNibbles_decodeWindow]
  obtain ⟨hl, h⟩ | ⟨hl, hmark, hav, h⟩ | ⟨hl, hF, hsgn, hav⟩ := h
  · rw [hl]
    split_ifs <;> omega
  · rw [hl, if_neg (not_le.mpr hmark)]
    split_ifs with hesc
    · have hcut := (h.resolve_left (not_not.mpr hesc.1)).resolve_left fun hno => hesc.2.elim hno.1 hno.2
      omega
    · simp
  · rw [hl, if_neg (by simp [hF]), if_pos ⟨hF, hsgn⟩]
    simp

/-! ## The code words with a delta -/

/-- A word of the decoder with all its nibbles available goes on to its own part (R149). -/
theorem withWord_whole {need : Nat} {s : State} (k : State → Host.Outcome State Fault Refusal) (hf : s.fsm = .decRun)
    (hne : s.scur ≠ s.dstCap) (hpos : 0 < need) (hlen : s.ncur.toNat + need ≤ 2 * s.srcLen.toNat) :
    withWord need k s = k s := by
  have he : decodeEnds s = false := decodeEnds_eq_false.mpr ⟨hne, by omega⟩
  have hav : available s (s.ncur.toNat + (need - 1)) = true := by simp [available]; omega
  simp [withWord, hf, he, hav]

/-- A word of the decoder cut short ends the command with TRUNCATED (R141, R149). -/
theorem withWord_cut {need : Nat} {s : State} (k : State → Host.Outcome State Fault Refusal) (hf : s.fsm = .decRun)
    (hne : s.scur ≠ s.dstCap) (hn : s.ncur.toNat < 2 * s.srcLen.toNat)
    (hcut : 2 * s.srcLen.toNat < s.ncur.toNat + need) : withWord need k s = finishCommand .truncated s := by
  have he : decodeEnds s = false := decodeEnds_eq_false.mpr ⟨hne, hn⟩
  have hav : available s (s.ncur.toNat + (need - 1)) = false := by simp [available]; omega
  simp [withWord, hf, he, hav]

/-- Each word of the decoder is read by the nibbles it is inspected by (R149). -/
theorem exec_eq_withWord {i : Instr} (hi : 0 < inspectedNibbles i) (s : State) :
    ∃ k, exec i s = withWord (inspectedNibbles i) k s := by
  cases i with
  | decEscBad n1 => exact ⟨finishCommand .badEscape, rfl⟩
  | decShort | decMidNeg | decMidPos | decEscNeg | decEscPos => exact ⟨_, (exec_of_wordDelta rfl s).trans rfl⟩
  | _ => exact absurd hi (Nat.lt_irrefl 0)

/-- A whole word with its sample `n` in range writes it and commits its nibbles (R147, R148). -/
theorem exec_writes {i : Instr} {d : Int} {s : State} {n : Nat} (hd : wordDelta i = some d) (hf : s.fsm = .decRun)
    (hne : s.scur ≠ s.dstCap) (hlen : s.ncur.toNat + inspectedNibbles i ≤ 2 * s.srcLen.toNat)
    (ha : s.dstAddr.toNat + s.scur.toNat < 2 ^ s.addrW) (hv : (s.prev.toNat : Int) - d = n) (hn : n ≤ 255) :
    exec i s = .next
      { s with mem := Memory.write s.mem (s.dstAddr.toNat + s.scur.toNat) (BitVec.ofNat 8 n), prev := BitVec.ofNat 8 n,
               scur := s.scur + 1, ncur := s.ncur + BitVec.ofNat 33 (inspectedNibbles i) } := by
  have hi := inspectedNibbles_pos_of_wordDelta hd
  have he : decodeEnds s = false := decodeEnds_eq_false.mpr ⟨hne, by omega⟩
  exact (exec_of_wordDelta hd s).trans (decodeDelta_writes hf he hi hlen ha hv hn)

/-- Settles O15: the delta is `n0 - 6`. -/
theorem decShortCompletes : Obligations.DecShortCompletes := by
  intro s n0 hf hne hlen ha hlo hhi
  exact exec_writes rfl hf hne hlen ha (by unfold shortDelta; omega) (by omega)

/-- Settles O16: the delta is `-(m + 6)`. -/
theorem decMidNegCompletes : Obligations.DecMidNegCompletes := by
  intro s m hf hne hlen ha hv
  exact exec_writes rfl hf hne hlen ha (by simp only [signedDelta, midMagnitude]; omega) hv

/-- Settles O17: the delta is `m + 6`. -/
theorem decMidPosCompletes : Obligations.DecMidPosCompletes := by
  intro s m hf hne hlen ha hv
  exact exec_writes rfl hf hne hlen ha (by simp only [signedDelta, midMagnitude]; omega) (by omega)

/-- Settles O18: the delta is `-(lo | hi << 4)`. -/
theorem decEscNegCompletes : Obligations.DecEscNegCompletes := by
  intro s lo hi hf hne hlen ha hv
  exact exec_writes rfl hf hne hlen ha (by simp only [signedDelta, escMagnitude]; omega) hv

/-- Settles O19: the delta is `lo | hi << 4`. -/
theorem decEscPosCompletes : Obligations.DecEscPosCompletes := by
  intro s lo hi hf hne hlen ha hv
  exact exec_writes rfl hf hne hlen ha (by simp only [signedDelta, escMagnitude]; omega) (by omega)

/-! ## The ends of DECODE -/

/-- Settles O20: with both nibbles available the escape's own part is the error. -/
theorem decEscBadCompletes : Obligations.DecEscBadCompletes := by
  intro s n1 hf hne hlen
  exact (withWord_whole (finishCommand .badEscape) hf hne (by decide) hlen).trans (finishCommand_dec .badEscape hf)

/-- Settles O21: the test for the last nibble comes before every word's own part. -/
theorem truncatedEndsDecode : Obligations.TruncatedEndsDecode := by
  intro s i hf hne hn hcut
  obtain ⟨k, hk⟩ := exec_eq_withWord (i := i) (by omega) s
  calc exec i s = withWord (inspectedNibbles i) k s := hk
    _ = finishCommand .truncated s := withWord_cut k hf hne hn hcut
    _ = _ := finishCommand_dec .truncated hf

theorem isSample_eq_false {v : Int} : isSample v = false ↔ v < 0 ∨ 255 < v := by
  simp only [isSample, Bool.and_eq_false_iff, decide_eq_false_iff_not]
  omega

/-- Settles O22: a whole word tests its sample before it writes (`decodeDelta_range`). -/
theorem rangeEndsDecode : Obligations.RangeEndsDecode := by
  intro s i d hf hne hlen hd hout
  have hi := inspectedNibbles_pos_of_wordDelta hd
  have he : decodeEnds s = false := decodeEnds_eq_false.mpr ⟨hne, by omega⟩
  have hv : isSample (reconstruct s.prev d) = false := isSample_eq_false.mpr hout
  calc exec i s = decodeDelta (inspectedNibbles i) d s := exec_of_wordDelta hd s
    _ = finishCommand .range s := decodeDelta_range hf he hi hlen hv
    _ = _ := finishCommand_dec .range hf

/-- Settles O23: the count and the stream are tested before the word is read. -/
theorem decodeEndsWithNone : Obligations.DecodeEndsWithNone := by
  intro s u hu hf hend
  calc step s = engineStep u := step_of_engineTurn hu
    _ = finishCommand .none u := engineStep_of_decodeEnds hf (decodeEnds_iff.mpr hend)
    _ = _ := finishCommand_dec .none hf

/-! ## The frame -/

/-- Everything a word of the decoder can do (R147, R148, R150): end the command, or write one sample. -/
theorem exec_decoder_word_cases {i : Instr} {s t : State} (hi : 0 < inspectedNibbles i) (ht : exec i s = .next t) :
    s.fsm = .decRun ∧
      ((∃ e, finishCommand e s = .next t) ∨
        ∃ v, t = ((s.setMem (Memory.write s.mem (sampleAddr s) v)).commit v).advance (inspectedNibbles i)) := by
  obtain ⟨d, he⟩ | he := exec_decoder_word hi s <;> rw [he] at ht
  · obtain ⟨hf, ⟨-, h⟩ | ⟨-, -, h⟩ | ⟨-, -, -, h⟩ | ⟨-, -, -, -, rfl⟩⟩ := decodeDelta_cases ht
    · exact ⟨hf, .inl ⟨_, h⟩⟩
    · exact ⟨hf, .inl ⟨_, h⟩⟩
    · exact ⟨hf, .inl ⟨_, h⟩⟩
    · exact ⟨hf, .inr ⟨_, rfl⟩⟩
  · obtain ⟨hf, ⟨-, h⟩ | ⟨-, -, h⟩ | ⟨-, -, h⟩⟩ := withWord_cases ht <;> exact ⟨hf, .inl ⟨_, h⟩⟩

/-- Settles O24: a word ends the command, which touches no memory in DEC_RUN, or writes one sample. -/
theorem decoderFrame : Obligations.DecoderFrame := by
  intro i s t hi ht
  obtain ⟨hf, ⟨e, h⟩ | ⟨v, rfl⟩⟩ := exec_decoder_word_cases hi ht
  · rw [finishCommand_dec e hf] at h
    cases h
    simp
  · simp only [State.advance_mem, State.commit_mem, State.setMem_mem]
    refine ⟨rfl, rfl, rfl, rfl, rfl, rfl, rfl, rfl, rfl, rfl, rfl, .inl ⟨hf, rfl, rfl, rfl, rfl, rfl, rfl, ?_⟩⟩
    exact fun a ha => Memory.read_write_other ha

end Sys2Proof.Machine
end

section
/-! SUPPORT. The code words of the encoder (40_encoder.md R101 to R111), and the statements about them. -/

namespace Sys2Proof.Machine

/-! ## The emissions -/

/-- The three instructions the encoder emits (R102 to R104). -/
def isEmission (i : Instr) : Prop :=
  (∃ v, i = .encShort v) ∨ (∃ g m, i = .encMid g m) ∨ ∃ g lo hi, i = .encEsc g lo hi

/-- An emission is the encoder step on its nibbles (R101). -/
theorem exec_of_isEmission {i : Instr} (hi : isEmission i) (s : State) : exec i s = emitWord (wordNibbles i) s := by
  obtain ⟨v, rfl⟩ | ⟨g, m, rfl⟩ | ⟨g, lo, hi, rfl⟩ := hi <;> rfl

/-- An emission that fits, once its nibbles are emitted (R101, R106, R107). -/
theorem exec_commits {i : Instr} {s u : State} (hi : isEmission i) (hf : s.fsm = .encRun) (hne : s.scur ≠ s.srcLen)
    (ha : inputAddr s < 2 ^ s.addrW) (hc : s.ncur.toNat + (wordNibbles i).length ≤ 2 * s.dstCap.toNat)
    (hu : emitNibbles (wordNibbles i) s = some u) : exec i s = .next (u.commit (Memory.read s.mem (inputAddr s))) :=
  (exec_of_isEmission hi s).trans (emitWord_commits hf hne ha hc hu)

theorem signMarker_eq_ite (g : Sign) : signMarker g = if g = .neg then 0xD else 0xE := by cases g <;> rfl

/-- With room for a nibble the byte at the cursor lies in the output buffer, so in memory (R106). -/
theorem packAddr_lt_of_room {s : State} (hn : s.ncur.toNat < 2 * s.dstCap.toNat)
    (hd : s.dstAddr.toNat + s.dstCap.toNat ≤ 2 ^ s.addrW) : packAddr s < 2 ^ s.addrW := by
  unfold packAddr
  omega

/-- Settles O25: its nibble is held, or completes the byte of the held one. -/
theorem encShortCompletes : Obligations.EncShortCompletes := by
  intro s v hf hne ha hlen hd smp A
  refine ⟨fun he => ?_, fun ho => ?_⟩
  · have hu : emitNibbles [v] s = some ((s.setHold v).advance 1) := by simp [emitNibbles, emitNibble_even v he]
    exact exec_commits (.inl ⟨v, rfl⟩) hf hne ha hlen hu
  · have hu : emitNibbles [v] s =
        some ((s.setMem (Memory.write s.mem (packAddr s) (packByte s.hold v))).advance 1) := by
      simp [emitNibbles, emitNibble_odd v ho (packAddr_lt_of_room hlen hd)]
    exact exec_commits (.inl ⟨v, rfl⟩) hf hne ha hlen hu

/-- Settles O26: one pair of nibbles (`emitNibbles_pair_even`, `emitNibbles_pair_odd`). -/
theorem encMidCompletes : Obligations.EncMidCompletes := by
  intro s g m hf hne ha hlen hd smp A mark
  have hemit : isEmission (.encMid g m) := .inr (.inl ⟨g, m, rfl⟩)
  have hmark : signMarker g = mark := signMarker_eq_ite g
  have hlt := s.dstCap.isLt
  have hp : packAddr s < 2 ^ s.addrW := packAddr_lt_of_room (by omega) hd
  rw [← hmark]
  refine ⟨fun he => ?_, fun ho => ?_⟩
  · exact exec_commits hemit hf hne ha hlen (emitNibbles_pair_even (signMarker g) m [] he (by omega) hp)
  · exact exec_commits hemit hf hne ha hlen (emitNibbles_pair_odd (signMarker g) m [] ho (by omega) hp)

/-- The packer after two nibbles: the byte at the cursor is written, and `v` is the nibble last held (R105). -/
def State.packPair (s : State) (x : Byte) (v : Nibble) : State :=
  { s with mem := Memory.write s.mem (packAddr s) x, hold := v, ncur := s.ncur + 2 }

theorem packPair_ncur {s : State} (hn : s.ncur.toNat + 2 < 2 ^ 33) (x : Byte) (v : Nibble) :
    (s.packPair x v).ncur.toNat = s.ncur.toNat + 2 :=
  ncur_add_toNat hn

theorem packPair_packAddr {s : State} (hn : s.ncur.toNat + 2 < 2 ^ 33) (x : Byte) (v : Nibble) :
    packAddr (s.packPair x v) = packAddr s + 1 := by
  rw [packAddr, packPair_ncur hn, Nat.add_div_right _ two_pos]
  rfl

/-- Two pairs write two bytes, one after the other. -/
theorem packPair_packPair {s : State} (hn : s.ncur.toNat + 2 < 2 ^ 33) (x y : Byte) (v w : Nibble) :
    (s.packPair x v).packPair y w =
      { s with mem := Memory.write (Memory.write s.mem (packAddr s) x) (packAddr s + 1) y, hold := w,
               ncur := s.ncur + 4 } := by
  rw [State.packPair, packPair_packAddr hn]
  simp only [State.packPair, BitVec.add_assoc]
  rfl

/-- Four nibbles from an even cursor make two bytes (R61, R105). -/
theorem emitNibbles_quad_even {s : State} (a b c d : Nibble) (he : s.ncur.toNat % 2 = 0)
    (hn : s.ncur.toNat + 4 < 2 ^ 33) (hp : packAddr s + 1 < 2 ^ s.addrW) :
    emitNibbles [a, b, c, d] s = some ((s.packPair (b ++ a) a).packPair (d ++ c) c) := by
  have hcur := packPair_ncur (s := s) (by omega) (b ++ a) a
  have haddr := packPair_packAddr (s := s) (by omega) (b ++ a) a
  calc emitNibbles [a, b, c, d] s
    _ = emitNibbles [c, d] (s.packPair (b ++ a) a) := emitNibbles_pair_even a b [c, d] he (by omega) (by omega)
    _ = some ((s.packPair (b ++ a) a).packPair (d ++ c) c) :=
      emitNibbles_pair_even c d [] (by omega) (by omega) (haddr ▸ hp)

/-- Four nibbles from an odd cursor complete two bytes and start the next (R61, R105). -/
theorem emitNibbles_quad_odd {s : State} (a b c d : Nibble) (ho : s.ncur.toNat % 2 = 1)
    (hn : s.ncur.toNat + 4 < 2 ^ 33) (hp : packAddr s + 1 < 2 ^ s.addrW) :
    emitNibbles [a, b, c, d] s = some ((s.packPair (a ++ s.hold) b).packPair (c ++ b) d) := by
  have hcur := packPair_ncur (s := s) (by omega) (a ++ s.hold) b
  have haddr := packPair_packAddr (s := s) (by omega) (a ++ s.hold) b
  calc emitNibbles [a, b, c, d] s
    _ = emitNibbles [c, d] (s.packPair (a ++ s.hold) b) := emitNibbles_pair_odd a b [c, d] ho (by omega) (by omega)
    _ = some ((s.packPair (a ++ s.hold) b).packPair (c ++ b) d) :=
      emitNibbles_pair_odd c d [] (by omega) (by omega) (haddr ▸ hp)

/-- Settles O27: two pairs of nibbles (`emitNibbles_quad_even`, `emitNibbles_quad_odd`). -/
theorem encEscCompletes : Obligations.EncEscCompletes := by
  intro s g lo hi hf hne ha hlen hd smp A mark
  have hemit : isEmission (.encEsc g lo hi) := .inr (.inr ⟨g, lo, hi, rfl⟩)
  have hmark : signMarker g = mark := signMarker_eq_ite g
  have hlt := s.dstCap.isLt
  have hp : packAddr s + 1 < 2 ^ s.addrW := by unfold packAddr; omega
  rw [← hmark]
  refine ⟨fun he => ?_, fun ho => ?_⟩
  · have hu := emitNibbles_quad_even escapeMarker (signMarker g) lo hi he (by omega) hp
    rw [packPair_packPair (by omega)] at hu
    exact exec_commits hemit hf hne ha hlen hu
  · have hu := emitNibbles_quad_odd escapeMarker (signMarker g) lo hi ho (by omega) hp
    rw [packPair_packPair (by omega)] at hu
    exact exec_commits hemit hf hne ha hlen hu

/-! ## The ends of ENCODE -/

/-- With every sample encoded the engine ends the command (R101). -/
theorem engineStep_of_encodeEnds {s : State} (hf : s.fsm = .encRun) (hend : s.scur = s.srcLen) :
    engineStep s = finishCommand .none s := by
  simp [engineStep, hf, encodeStep, encodeEnds, hend]

/-- Settles O28: the capacity test comes before the emission, and finish flushes a held nibble. -/
theorem overflowEndsEncode : Obligations.OverflowEndsEncode := by
  intro s i hi hf hne ha hc A
  have he : exec i s = finishCommand .overflow s := (exec_of_isEmission hi s).trans (emitWord_overflows hf hne ha hc)
  exact ⟨fun h => he.trans (finishCommand_enc_even _ hf h), fun h hA => he.trans (finishCommand_enc_odd _ hf h hA)⟩

/-- Settles O29: with every sample encoded the engine ends the command, and finish flushes a held nibble. -/
theorem encodeEndsWithNone : Obligations.EncodeEndsWithNone := by
  intro s u hu hf hend A
  have he : step s = finishCommand .none u := (step_of_engineTurn hu).trans (engineStep_of_encodeEnds hf hend)
  exact ⟨fun h => he.trans (finishCommand_enc_even _ hf h), fun h hA => he.trans (finishCommand_enc_odd _ hf h hA)⟩

/-! ## The frame -/

/-- Everything an emission can do (R101, R111): end the command, or emit its nibbles and commit a sample. -/
theorem exec_emission_cases {i : Instr} {s t : State} (hi : isEmission i) (ht : exec i s = .next t) :
    s.fsm = .encRun ∧
      ((∃ e, finishCommand e s = .next t) ∨
        ∃ u v, s.ncur.toNat + (wordNibbles i).length ≤ 2 * s.dstCap.toNat ∧ emitNibbles (wordNibbles i) s = some u ∧
          t = u.commit v) := by
  rw [exec_of_isEmission hi] at ht
  obtain ⟨hf, ⟨-, h⟩ | ⟨-, -, -, h⟩ | ⟨-, -, hc, u, hu, rfl⟩⟩ := emitWord_cases ht
  · exact ⟨hf, .inl ⟨_, h⟩⟩
  · exact ⟨hf, .inl ⟨_, h⟩⟩
  · exact ⟨hf, .inr ⟨u, _, hc, hu, rfl⟩⟩

/-- A finish leaves parameters, operands, cursors, the held nibble and the host's side; the flush is its one write
(R110, R111, R150). -/
theorem finishCommand_frame {s t : State} {e : ErrCode} (ht : finishCommand e s = .next t) :
    t = { s with
      mem := t.mem, outLen := t.outLen, consumed := t.consumed, consumedHi := t.consumedHi, last := t.last
      done := true, errCode := e, fsm := .idle } := by
  obtain ⟨-, -, rfl⟩ | ⟨-, -, -, rfl⟩ | ⟨-, rfl⟩ := finishCommand_cases ht <;> rfl

/-- Settles O30: an emission ends the command, whose one write is the flush, or stores the bytes its nibbles complete
(`emitNibbles_cases`). -/
theorem encoderFrame : Obligations.EncoderFrame := by
  intro i s t hi ht
  obtain ⟨hf, ⟨e, h⟩ | ⟨u, v, hc, hu, rfl⟩⟩ := exec_emission_cases hi ht
  · have hm : ∀ a, a ≠ packAddr s ∨ s.ncur.toNat % 2 = 0 → Memory.read t.mem a = Memory.read s.mem a :=
      fun a ha => finishCommand_mem h fun _ ho => ha.resolve_right (by omega)
    rw [finishCommand_frame h]
    exact ⟨rfl, rfl, rfl, rfl, rfl, rfl, rfl, rfl, rfl, rfl, .inr ⟨rfl, rfl, rfl, rfl, rfl, hm⟩⟩
  · have := s.dstCap.isLt
    obtain ⟨m, w, rfl, hm, -⟩ := emitNibbles_cases hu (by omega)
    exact ⟨rfl, rfl, rfl, rfl, rfl, rfl, rfl, rfl, rfl, rfl, .inl ⟨hf, rfl, rfl, rfl, rfl, rfl, rfl, hm⟩⟩

end Sys2Proof.Machine
end

section
/-! SUPPORT. The commands (20_memory.md R69; 42_interface.md R170 to R173), and the statements about them. -/

namespace Sys2Proof.Machine

/-! ## A start -/

/-- A start while IDLE with operands that meet R69 (R171, R172). -/
theorem startCommand_of_idle {s : State} (hf : s.fsm = .idle) (hr : startRefusal s = none) (f : Fsm) :
    startCommand f s = .next (s.start f) := by
  simp [startCommand, busy_eq_false.mpr hf, hr]

/-- A start while IDLE with operands that break R69. -/
theorem startCommand_refused {s : State} {r : Refusal} (hf : s.fsm = .idle) (hr : startRefusal s = some r) (f : Fsm) :
    startCommand f s = .refused r := by
  simp [startCommand, busy_eq_false.mpr hf, hr]

/-- ENCODE and DECODE are starts. -/
theorem exec_start {i : Instr} (hi : i = .startEncode ∨ i = .startDecode) :
    ∃ f, f ≠ .idle ∧ ∀ s, exec i s = startCommand f s := by
  obtain rfl | rfl := hi
  · exact ⟨.encRun, by decide, fun _ => rfl⟩
  · exact ⟨.decRun, by decide, fun _ => rfl⟩

/-- Settles O12: the hypotheses are the preconditions of R69 (`startRefusal_eq_none`). -/
theorem startCompletes : Obligations.StartCompletes := by
  intro s hf hsrc hdst hover hsw hdw l
  have hzero : ∀ n : Word, n = 0 → n.toNat = 0 := fun n h => by simp [h]
  have hr : startRefusal s = none := by
    simp only [startRefusal_eq_none, disjoint_iff, windowBytes]
    exact ⟨hsrc, hdst, hover.imp (hzero _) (Or.imp_left (hzero _)), hsw.imp (hzero _) .inr,
      hdw.imp (hzero _) .inr⟩
  exact ⟨startCommand_of_idle hf hr .encRun, startCommand_of_idle hf hr .decRun⟩

/-- Settles O13: the conditions are those `startRefusal` tests in turn (`disjoint_false_iff`). -/
theorem startRefused : Obligations.StartRefused := by
  intro s i hf hi a b c
  obtain ⟨f, -, hexec⟩ := exec_start hi
  have hrefused : ∀ r, startRefusal s = some r → exec i s = .refused r :=
    fun r hr => (hexec s).trans (startCommand_refused hf hr f)
  have hb : disjoint s.srcAddr.toNat s.srcLen.toNat s.dstAddr.toNat s.dstCap.toNat = false ↔ b := disjoint_false_iff
  have hc : disjoint s.srcAddr.toNat s.srcLen.toNat s.regBase windowBytes = false ∨
      disjoint s.dstAddr.toNat s.dstCap.toNat s.regBase windowBytes = false ↔ c := by
    simp [disjoint_false_iff, windowBytes, c]
  have heq : startRefusal s = if a then some .bufferWraps else if b then some .buffersOverlap
      else if c then some .bufferOverRegisters else none := by
    simp only [startRefusal, hb, hc, a]
  refine ⟨fun ha => hrefused _ ?_, fun ha hb => hrefused _ ?_, fun ha hb hc => hrefused _ ?_⟩
  · rw [heq, if_pos ha]
  · rw [heq, if_neg ha, if_pos hb]
  · rw [heq, if_neg ha, if_neg hb, if_pos hc]

/-! ## The frame -/

/-- Settles O14: a start sets only the engine's state, STATUS and the noted launch; the other two commands only
STATUS. -/
theorem commandFrame : Obligations.CommandFrame := by
  intro i s t hi ht
  have hstart : ∀ f, startCommand f s = .next t → t = s ∨ t = s.start f :=
    fun f h => (startCommand_cases h).imp And.right fun h => h.2.2
  obtain rfl | rfl | rfl | rfl := hi
  · cases ht
    simp
  · obtain rfl | rfl := hstart _ ht <;> simp
  · obtain rfl | rfl := hstart _ ht <;> simp
  · cases hb : busy s with
    | true => cases (execReserved_of_busy hb).symm.trans ht; simp
    | false => cases (execReserved_of_idle hb).symm.trans ht; simp

end Sys2Proof.Machine
end

section
/-! SUPPORT. The host's reads, writes and reset (10_state.md R21 to R36; 20_memory.md R60, R75; 42_interface.md R180;
70_reset_and_hazards.md R230, R231, R241), and the statements about them. -/

namespace Sys2Proof.Machine

/-! ## STATUS and the register block -/

/-- Settles O33: error code by error code, STATUS is a number for each BUSY and DONE. -/
theorem statusBits : Obligations.StatusBits := by
  intro s
  have hbusy : decide (s.fsm ≠ .idle) = busy s := rfl
  unfold statusWord errorFlag
  rw [hbusy]
  generalize busy s = b
  generalize s.done = d
  cases s.errCode <;> revert b d <;> decide

theorem goodAccess_iff {offset bits : Nat} :
    goodAccess offset bits = true ↔ bits = 32 ∧ offset % 4 = 0 ∧ offset ≤ 0x3C := by
  simp [goodAccess, and_assoc]

/-- `readRegister` by offset (R21). -/
theorem readRegister_eq (s : State) (offset : Nat) :
    readRegister s offset =
      if offset = 0x04 then statusWord s
      else if offset = 0x08 then s.srcAddr
      else if offset = 0x0C then s.srcLen
      else if offset = 0x10 then s.dstAddr
      else if offset = 0x14 then s.dstCap
      else if offset = 0x18 then s.outLen
      else if offset = 0x1C then s.consumed
      else if offset = 0x20 then s.last.setWidth 32
      else if offset = 0x24 then s.consumedHi.setWidth 32
      else 0 := by
  unfold readRegister
  split
  case h_10 h4 h8 hC h10 h14 h18 h1C h20 h24 =>
    rw [if_neg h4, if_neg h8, if_neg hC, if_neg h10, if_neg h14, if_neg h18, if_neg h1C, if_neg h20, if_neg h24]
  all_goals rfl

theorem isResult_iff {offset : Nat} :
    isResult offset = true ↔ offset = 0x18 ∨ offset = 0x1C ∨ offset = 0x20 ∨ offset = 0x24 := by
  simp [isResult, or_assoc]

theorem statusSeen_eq (s : State) :
    statusSeen s = { s with launch := if busy s = false then none else s.launch } := by
  unfold statusSeen
  cases busy s <;> rfl

/-- A good read whose value is exact (R33): STATUS also tells the host of the end (R241). -/
theorem regRead_exact {s : State} {offset : Nat} (hg : goodAccess offset 32 = true)
    (hx : (busy s && isResult offset) = false) :
    regRead offset 32 s = .next
      { s with
        rdata := readRegister s offset
        launch := if offset = 0x04 ∧ busy s = false then none else s.launch } := by
  obtain rfl | h4 := eq_or_ne offset 0x04
  · simp only [regRead, hg, hx, statusSeen_eq, true_and, reduceCtorEq, Bool.false_eq_true, if_false, if_true]
    rfl
  · simp [regRead, hg, hx, h4, State.setRdata]

/-- Settles O34: while IDLE every good read is exact (`regRead_exact`, `readRegister_eq`). -/
theorem registerReadIdle : Obligations.RegisterReadIdle := by
  intro s offset rest hs hf ha hr
  have hi : busy (s.setScript rest) = false := busy_eq_false.mpr hf
  calc step s = regRead offset 32 (s.setScript rest) := step_cons hs
    _ = _ := regRead_exact (goodAccess_of_aligned ha hr) (by simp [hi])
    _ = _ := by simp only [readRegister_eq, hi, and_true]; rfl

/-- Settles O35: while BUSY a result register is drawn, any other is exact. -/
theorem registerReadBusy : Obligations.RegisterReadBusy := by
  intro s offset rest hs hf ha hr
  have hb : busy (s.setScript rest) = true := busy_iff.mpr hf
  have hg := goodAccess_of_aligned ha hr
  refine ⟨fun hres => ?_, fun hres => ?_⟩
  · calc step s = regRead offset 32 (s.setScript rest) := step_cons hs
      _ = _ := by simp [regRead, hg, hb, isResult_iff.mpr hres]; rfl
  · have hx : isResult offset = false := by rw [← Bool.not_eq_true, isResult_iff]; exact hres
    obtain ⟨h18, h1C, h20, h24⟩ : _ ∧ _ ∧ _ ∧ _ := by simpa only [not_or] using hres
    calc step s = regRead offset 32 (s.setScript rest) := step_cons hs
      _ = _ := regRead_exact hg (by simp [hx])
      _ = _ := by simp [readRegister_eq, hb, h18, h1C, h20, h24]; rfl

/-- Settles O38: reads and writes test the access first. -/
theorem badAccessRefused : Obligations.BadAccessRefused := by
  intro s offset bits v rest hs hbad
  have hg : goodAccess offset bits = false := by
    rw [← Bool.not_eq_true, goodAccess_iff]
    omega
  obtain hs | hs := hs <;> rw [step_cons hs]
  · simp [makeMove, regWrite, hg]
  · simp [makeMove, regRead, hg]

/-- Settles O39: while BUSY a POLL is an engine turn; while IDLE it is a read of STATUS. -/
theorem pollWaits : Obligations.PollWaits := by
  intro s rest hs
  refine ⟨fun hf => step_of_engineTurn (.inr (.inr ⟨rest, hs, hf, rfl⟩)), fun hf => ?_⟩
  have hi : busy (s.setScript rest) = false := busy_eq_false.mpr hf
  calc step s = regRead 0x04 32 (s.setScript rest) := by rw [step_cons hs]; simp [makeMove, hi]
    _ = _ := regRead_exact (by decide) (by simp [hi])
    _ = _ := by simp only [hi]; rfl

/-! ## Memory -/

/-- An address outside the 64 bytes of the register window (R21). -/
theorem inWindow_eq_false {s : State} {a : Nat} (h : a < s.regBase ∨ s.regBase + 0x40 ≤ a) : inWindow s a = false := by
  rw [← Bool.not_eq_true, inWindow, inBuffer_iff, windowBytes]
  omega

/-- A host write that is accepted stores its byte (R60, R180). -/
theorem hostWrite_stores {s : State} {a : Nat} (v : Byte) (hw : inWindow s a = false) (hz : frozen s a = false)
    (ha : a < 2 ^ s.addrW) : hostWrite a v s = .next (s.setMem (Memory.write s.mem a v)) := by
  simp [hostWrite, hw, hz, inMemory, ha]

/-- A host read outside a running command's output returns the byte (R60, R180). -/
theorem hostRead_exact {s : State} {a : Nat} (hw : inWindow s a = false) (ha : a < 2 ^ s.addrW)
    (ho : (busy s && inOutput s a) = false) :
    hostRead a s = .next (s.setRdata ((Memory.read s.mem a).setWidth 32)) := by
  simp only [hostRead, hw, ho]
  simp [inMemory, ha]

/-- Settles O40: the write stores the byte (`hostWrite_stores`), and the read returns what is stored then. -/
theorem hostMemory : Obligations.HostMemory := by
  intro s a x v rest hs ha hx hwa hwx hz hout
  refine ⟨(s.setScript (.memRead x :: rest)).setMem (Memory.write s.mem a v), ?_, rfl, ?_⟩
  · exact (step_cons hs).trans (hostWrite_stores v hwa hz ha)
  · have ho : (busy s && inOutput s x) = false := by
      obtain hf | ho := hout
      · simp [busy_eq_false.mpr hf]
      · simp [ho]
    rw [step_cons (m := .memRead x) (rest := rest) rfl, ← Memory.read_write]
    exact hostRead_exact hwx hx ho

/-- Settles O41: outside the window, the freeze is tested before the address. -/
theorem frozenWriteRefused : Obligations.FrozenWriteRefused := by
  intro s a v rest l hs hl hin hw
  have hz : frozen (s.setScript rest) a = true := by
    simpa [frozen, hl, inBuffer_iff] using hin
  have hw' : inWindow (s.setScript rest) a = false := inWindow_eq_false hw
  rw [step_cons hs]
  simp [makeMove, hostWrite, hw', hz]

/-- Settles O42: reads and writes test the window first and the address last. -/
theorem badMemoryAccess : Obligations.BadMemoryAccess := by
  intro s a v rest hs
  refine ⟨fun hlo hhi => ?_, fun hw hz ha => ?_⟩
  · have hw : inWindow (s.setScript rest) a = true := inBuffer_iff.mpr ⟨hlo, hhi⟩
    obtain hs | hs := hs <;> rw [step_cons hs]
    · simp [makeMove, hostRead, hw]
    · simp [makeMove, hostWrite, hw]
  · have hw' : inWindow (s.setScript rest) a = false := inWindow_eq_false hw
    have hz' : frozen (s.setScript rest) a = false := hz
    have hm : inMemory (s.setScript rest) a = false := decide_eq_false (not_lt.mpr ha)
    obtain hs | hs := hs <;> rw [step_cons hs]
    · simp [makeMove, hostRead, hw', hm]
    · simp [makeMove, hostWrite, hw', hz', hm]

/-- The free choice of an output byte is between two values (R75, R231). -/
theorem oldOrFinal_cases {s : State} {l : Launch} (hl : s.launch = some l) (n a : Nat) :
    oldOrFinal s n a = Memory.read l.before a ∨ oldOrFinal s n a = Memory.read (atEnd s).mem a := by
  simp only [oldOrFinal, memBefore, hl]
  split <;> simp

/-- Settles O43: the byte read is the free choice (`oldOrFinal_cases`). -/
theorem outputReadOldOrFinal : Obligations.OutputReadOldOrFinal := by
  intro s a rest l hs hf hl ha hw hlo hhi
  refine ⟨oldOrFinal (s.setScript rest) s.draws a, oldOrFinal_cases (s := s.setScript rest) hl _ _, ?_⟩
  have hw' : inWindow (s.setScript rest) a = false := inWindow_eq_false hw
  have hb : busy (s.setScript rest) = true := busy_iff.mpr hf
  have ho : inOutput (s.setScript rest) a = true := inBuffer_iff.mpr ⟨hlo, hhi⟩
  rw [step_cons hs]
  simp only [makeMove, hostRead, hw', hb, ho]
  simp [inMemory, ha]
  rfl

/-! ## Reset -/

/-- Settles O44: by the values of the fields, and for the register block offset by offset (`readRegister_eq`). -/
theorem resetValues : Obligations.ResetValues := by
  intro w r s
  refine ⟨rfl, rfl, rfl, rfl, rfl, rfl, rfl, rfl, rfl, fun offset => ?_⟩
  rw [readRegister_eq]
  split_ifs <;> rfl

/-- After a reset while BUSY an output byte is old or final: one listed in no memory reads the same in all (R231). -/
theorem memAfterReset_output {s : State} {l : Launch} (hl : s.launch = some l) {a : Nat} (ha : inOutput s a = true) :
    Memory.read (memAfterReset s) a = Memory.read l.before a ∨
      Memory.read (memAfterReset s) a = Memory.read (atEnd s).mem a := by
  rw [memAfterReset, Memory.read_overwrite]
  split
  · exact oldOrFinal_cases hl _ a
  · next hno =>
    left
    simp only [outputTouched, memBefore, hl, List.mem_filter, ha, and_true, List.map_append, List.mem_append,
      not_or] at hno
    rw [Memory.read_of_not_listed hno.2, Memory.read_of_not_listed hno.1.1]

/-- A reset changes no byte outside the output buffer (R230, R231). -/
theorem memAfterReset_other {s : State} {a : Nat} (ha : inOutput s a = false) :
    Memory.read (memAfterReset s) a = Memory.read s.mem a := by
  rw [memAfterReset, Memory.read_overwrite, if_neg]
  simp [outputTouched, ha]

/-- Settles O45: the reset state keeps what the model says; memory is as `memAfterReset` leaves it while BUSY. -/
theorem resetFromAnywhere : Obligations.ResetFromAnywhere := by
  intro s rest hs
  refine ⟨_, _, step_cons hs, fun hf => ?_, fun l hf hl a => ?_⟩
  · have hi : busy (s.setScript rest) = false := busy_eq_false.mpr hf
    simp [hi]
  · have hb : busy (s.setScript rest) = true := busy_iff.mpr hf
    simp only [hb, if_true]
    refine ⟨fun ha => memAfterReset_output (s := s.setScript rest) hl (inBuffer_iff.mpr ha),
      fun ha => memAfterReset_other ?_⟩
    rw [← Bool.not_eq_true, inOutput, inBuffer_iff]
    exact ha

end Sys2Proof.Machine
end

section
/-! SUPPORT. Where a step stops: an access with no byte to go to, and a code word whose command does not run
(10_state.md R44; 20_memory.md R71; 60_exceptions.md R209), and the statements about it. -/

namespace Sys2Proof.Machine

/-! ## Accesses with no byte to go to -/

theorem memRead_eq_none {s : State} {a : Nat} (h : 2 ^ s.addrW ≤ a) : memRead s a = none := by
  simp [memRead, inMemory, h]

theorem memWrite_eq_none {s : State} {a : Nat} (v : Byte) (h : 2 ^ s.addrW ≤ a) : memWrite s a v = none := by
  simp [memWrite, inMemory, h]

theorem nibbleAt_eq_none {s : State} {k : Nat} (h : 2 ^ s.addrW ≤ s.srcAddr.toNat + k / 2) : nibbleAt s k = none := by
  simp [nibbleAt, memRead_eq_none h]

/-- NibbleAt is stuck or gives the nibble of the stream (R62). -/
theorem nibbleAt_cases (s : State) (k : Nat) :
    nibbleAt s k = none ∨ nibbleAt s k = some (memNibble s.mem s.srcAddr.toNat k) := by
  cases h : nibbleAt s k with
  | none => exact .inl rfl
  | some v => exact .inr (by rw [nibbleAt_eq_some h])

/-- The flush of a held nibble is stuck (R71, R110). -/
theorem finishCommand_stuck {s : State} (e : ErrCode) (hf : s.fsm = .encRun) (ho : s.ncur.toNat % 2 = 1)
    (ha : 2 ^ s.addrW ≤ packAddr s) : finishCommand e s = .fault .memoryStuck := by
  simp [finishCommand, hf, finishEncode, flush, ho, memWrite_eq_none _ ha]

/-! ## The inspection of a word -/

theorem engineStep_stuck_inspect {s : State} (hf : s.fsm = .decRun) (he : decodeEnds s = false)
    (hns : inspectWord s = none) : engineStep s = .fault .memoryStuck := by
  simp [engineStep, hf, decodeStep, he, hns]

theorem inspectWord_stuck_first {s : State} (h : 2 ^ s.addrW ≤ s.srcAddr.toNat + s.ncur.toNat / 2) :
    inspectWord s = none := by
  simp [inspectWord, nibbleAt_eq_none h]

/-- The second nibble is read where the first is a marker and the second is available (R131, R149). -/
theorem inspectWord_stuck_second {s : State} (hmark : 0xC < (memNibble s.mem s.srcAddr.toNat s.ncur.toNat).toNat)
    (hav : s.ncur.toNat + 1 < 2 * s.srcLen.toNat) (h : 2 ^ s.addrW ≤ s.srcAddr.toNat + (s.ncur.toNat + 1) / 2) :
    inspectWord s = none := by
  obtain h0 | h0 := nibbleAt_cases s s.ncur.toNat
  · simp [inspectWord, h0]
  · simp [inspectWord, h0, not_le.mpr hmark, available, hav, nibbleAt_eq_none h]

/-- The third and the fourth nibble are read where the first two start an escape and the fourth is available (R131,
R149). -/
theorem inspectWord_stuck_escape {s : State} (hF : memNibble s.mem s.srcAddr.toNat s.ncur.toNat = 0xF)
    (hsgn : memNibble s.mem s.srcAddr.toNat (s.ncur.toNat + 1) = 0xD ∨
      memNibble s.mem s.srcAddr.toNat (s.ncur.toNat + 1) = 0xE)
    (hav : s.ncur.toNat + 3 < 2 * s.srcLen.toNat)
    (h : nibbleAt s (s.ncur.toNat + 2) = none ∨ nibbleAt s (s.ncur.toNat + 3) = none) : inspectWord s = none := by
  have hav1 : available s (s.ncur.toNat + 1) = true := by simp [available]; omega
  have hav3 : available s (s.ncur.toNat + 3) = true := by simpa [available] using hav
  unfold inspectWord
  obtain h0 | h0 := nibbleAt_cases s s.ncur.toNat <;> rw [h0]
  simp only
  rw [if_neg (by simp [hF, hav1])]
  obtain h1 | h1 := nibbleAt_cases s (s.ncur.toNat + 1) <;> rw [h1]
  simp only
  rw [if_neg (by obtain hsgn | hsgn := hsgn <;> simp [hF, hsgn, hav3])]
  split
  · next n2 n3 h2 h3 => simp [h2, h3] at h
  · rfl

/-! ## The emission of a word -/

/-- Where a nibble completes a byte outside memory, the emission of its word is stuck (R71, R105). -/
theorem emitNibbles_stuck {c : List Nibble} {s : State} {j : Nat} (hj : j < c.length)
    (hn : s.ncur.toNat + c.length < 2 ^ 33) (ho : (s.ncur.toNat + j) % 2 = 1)
    (ha : 2 ^ s.addrW ≤ s.dstAddr.toNat + (s.ncur.toNat + j) / 2) : emitNibbles c s = none := by
  induction c generalizing s j with
  | nil => exact absurd hj (Nat.not_lt_zero j)
  | cons v vs ih =>
    simp only [emitNibbles]
    split
    · next t ht =>
      rw [List.length_cons] at hj hn
      have hone : (s.ncur + BitVec.ofNat 33 1).toNat = s.ncur.toNat + 1 := ncur_add_toNat (by omega)
      have ht' : t.ncur = s.ncur + BitVec.ofNat 33 1 ∧ t.dstAddr = s.dstAddr ∧ t.addrW = s.addrW := by
        obtain ⟨-, rfl⟩ | ⟨-, -, rfl⟩ := emitNibble_cases ht <;> exact ⟨rfl, rfl, rfl⟩
      obtain ⟨hcur, hd, hw⟩ := ht'
      cases j with
      | zero =>
        obtain ⟨he, -⟩ | ⟨-, hlt, -⟩ := emitNibble_cases ht
        · omega
        · unfold packAddr at hlt; omega
      | succ j =>
        exact ih (j := j) (by omega) (by rw [hcur, hone]; omega) (by rw [hcur, hone, Nat.add_right_comm]; exact ho)
          (by rw [hcur, hone, hd, hw, Nat.add_right_comm]; exact ha)
    · rfl

/-- The encoder step of a word whose emission is stuck. -/
theorem emitWord_stuck {c : List Nibble} {s : State} (hf : s.fsm = .encRun) (hne : s.scur ≠ s.srcLen)
    (ha : inputAddr s < 2 ^ s.addrW) (hc : s.ncur.toNat + c.length ≤ 2 * s.dstCap.toNat)
    (hu : emitNibbles c s = none) : emitWord c s = .fault .memoryStuck := by
  have he : encodeEnds s = false := by simpa [encodeEnds] using hne
  simp [emitWord, hf, he, memRead_of_lt ha, not_lt.mpr hc, hu]

/-- A whole word with its sample in range, whose write is stuck (R71, R148). -/
theorem exec_stuck_sample {i : Instr} {d : Int} {s : State} (hd : wordDelta i = some d) (hf : s.fsm = .decRun)
    (hne : s.scur ≠ s.dstCap) (hlen : s.ncur.toNat + inspectedNibbles i ≤ 2 * s.srcLen.toNat)
    (hv : isSample (reconstruct s.prev d) = true) (ha : 2 ^ s.addrW ≤ sampleAddr s) :
    exec i s = .fault .memoryStuck := by
  rw [exec_of_wordDelta hd, decodeDelta, withWord_whole _ hf hne (inspectedNibbles_pos_of_wordDelta hd) hlen]
  simp [hv, writeSample, memWrite_eq_none _ ha]

/-- Settles O31: each clause reaches its access, which has no byte. -/
theorem stuckAccess : Obligations.StuckAccess := by
  refine ⟨fun s u hu => ?_, fun s => ⟨fun i d hf hne hlen hd hlo hhi ha => ?_, fun i hi hf hne hin => ?_⟩⟩
  · have hstep := step_of_engineTurn hu
    refine ⟨fun hf hne ha => ?_, ?_, fun hf hend ho ha => ?_⟩
    · have ha' : memRead u (inputAddr u) = none := memRead_eq_none ha
      simp [hstep, engineStep, hf, encodeStep, encodeEnds, hne, ha']
    · intro hf hne hn k n0 n1
      have hstuck : inspectWord u = none → step s = .fault .memoryStuck := fun h =>
        hstep.trans (engineStep_stuck_inspect hf (decodeEnds_eq_false.mpr ⟨hne, hn⟩) h)
      exact ⟨fun h => hstuck (inspectWord_stuck_first h),
        fun hmark hav h => hstuck (inspectWord_stuck_second hmark hav h),
        fun hF hsgn hav h => hstuck (inspectWord_stuck_escape hF hsgn hav (h.imp nibbleAt_eq_none nibbleAt_eq_none))⟩
    · rw [hstep, engineStep_of_encodeEnds hf hend]
      exact finishCommand_stuck .none hf ho ha
  · have hv : isSample (reconstruct s.prev d) = true := by
      rw [← Bool.not_eq_false, isSample_eq_false, reconstruct]
      omega
    exact exec_stuck_sample hd hf hne hlen hv ha
  · have hlt := s.dstCap.isLt
    rw [exec_of_isEmission hi]
    refine ⟨fun hc j hj ho ha => ?_, fun hc ho ha => ?_⟩
    · exact emitWord_stuck hf hne hin hc (emitNibbles_stuck hj (by omega) ho ha)
    · exact (emitWord_overflows hf hne hin hc).trans (finishCommand_stuck .overflow hf ho ha)

/-! ## What no step refuses -/

/-- A running command's end is never refused. -/
theorem finishCommand_ne_refused {s : State} {e : ErrCode} {r : Refusal} (hf : s.fsm ≠ .idle) :
    finishCommand e s ≠ .refused r := by
  unfold finishCommand
  split
  · next hi => exact absurd hi hf
  · unfold finishEncode
    split <;> simp
  · simp [finishDecode]

theorem emitWord_ne_refused {c : List Nibble} {s : State} {r : Refusal} (hf : s.fsm = .encRun) :
    emitWord c s ≠ .refused r := by
  have hfin : ∀ e, finishCommand e s ≠ .refused r := fun e => finishCommand_ne_refused (by simp [hf])
  unfold emitWord
  rw [if_neg (by simp [hf])]
  split
  · exact hfin _
  · split
    · simp
    · split
      · exact hfin _
      · split <;> simp

theorem withWord_ne_refused {need : Nat} {k : State → Host.Outcome State Fault Refusal} {s : State} {r : Refusal}
    (hf : s.fsm = .decRun) (hk : k s ≠ .refused r) : withWord need k s ≠ .refused r := by
  have hfin : ∀ e, finishCommand e s ≠ .refused r := fun e => finishCommand_ne_refused (by simp [hf])
  unfold withWord
  rw [if_neg (by simp [hf])]
  split_ifs
  · exact hfin _
  · exact hfin _
  · exact hk

theorem exec_decoder_word_ne_refused {i : Instr} {s : State} {r : Refusal} (hi : 0 < inspectedNibbles i)
    (hf : s.fsm = .decRun) : exec i s ≠ .refused r := by
  have hfin : ∀ e, finishCommand e s ≠ .refused r := fun e => finishCommand_ne_refused (by simp [hf])
  obtain ⟨d, he⟩ | he := exec_decoder_word hi s <;> rw [he]
  · refine withWord_ne_refused hf ?_
    simp only [writeSample]
    split
    · split <;> simp
    · exact hfin _
  · exact withWord_ne_refused hf (hfin _)

/-- The engine takes no step that is refused (R44). -/
theorem engineStep_ne_refused (s : State) (r : Refusal) : engineStep s ≠ .refused r := by
  have hfin : s.fsm ≠ .idle → finishCommand .none s ≠ .refused r := finishCommand_ne_refused
  unfold engineStep
  split
  · simp
  · next hf =>
    unfold encodeStep
    split
    · exact hfin (by simp [hf])
    · split
      · simp
      · rw [exec_classify]
        exact emitWord_ne_refused hf
  · next hf =>
    unfold decodeStep
    split
    · exact hfin (by simp [hf])
    · split
      · simp
      · exact exec_decoder_word_ne_refused (inspectedNibbles_decodeWindow_pos _) hf

/-- A start is refused by R69 alone. -/
theorem startCommand_ne_noCommandRunning (f : Fsm) (s : State) : startCommand f s ≠ .refused .noCommandRunning := by
  unfold startCommand
  split
  · simp
  · split
    · next r hr =>
      rintro ⟨⟩
      unfold startRefusal at hr
      simp only at hr
      split_ifs at hr <;> cases hr
    · simp

theorem regWrite_ne_noCommandRunning (offset bits : Nat) (v : Word) (s : State) :
    regWrite offset bits v s ≠ .refused .noCommandRunning := by
  unfold regWrite
  split_ifs
  · simp
  · obtain h | h | h | h := decodeCommand_cases v <;> rw [h]
    · simp [exec, execNop]
    · exact startCommand_ne_noCommandRunning .encRun s
    · exact startCommand_ne_noCommandRunning .decRun s
    · simp only [exec, execReserved]
      split <;> simp
  · simp
  · simp

theorem regRead_ne_noCommandRunning (offset bits : Nat) (s : State) :
    regRead offset bits s ≠ .refused .noCommandRunning := by
  unfold regRead
  split_ifs <;> simp

theorem makeMove_ne_noCommandRunning (m : Move) (s : State) : makeMove m s ≠ .refused .noCommandRunning := by
  cases m with
  | engine => exact engineStep_ne_refused s _
  | regWrite offset bits v => exact regWrite_ne_noCommandRunning offset bits v s
  | regRead offset bits => exact regRead_ne_noCommandRunning offset bits s
  | poll =>
    simp only [makeMove]
    split
    · exact engineStep_ne_refused _ _
    · exact regRead_ne_noCommandRunning _ _ s
  | memWrite a v => simp only [makeMove, hostWrite]; split_ifs <;> simp
  | memRead a => simp only [makeMove, hostRead]; split_ifs <;> simp
  | reset => simp [makeMove]

/-- Settles O32: a word tests the run state first; a step runs words in their run state only. -/
theorem codeWordNeedsItsCommand : Obligations.CodeWordNeedsItsCommand := by
  refine ⟨fun i s => ⟨fun hi hf => ?_, fun hi hf => ?_⟩, fun s => ?_⟩
  · obtain ⟨k, hk⟩ := exec_eq_withWord hi s
    simp [hk, withWord, hf]
  · rw [exec_of_isEmission hi]
    simp [emitWord, hf]
  · cases hs : s.script with
    | nil => rw [step_nil hs]; exact engineStep_ne_refused s _
    | cons m rest => rw [step_cons hs]; exact makeMove_ne_noCommandRunning m _

end Sys2Proof.Machine
end

section
/-! SUPPORT. What a step of the IDLE machine keeps (60_exceptions.md R211, R218), and what carries from one command into
the next (70_reset_and_hazards.md R232), and the statements about them. -/

namespace Sys2Proof.Machine

/-! ## While IDLE -/

/-- STATUS, the result registers and the engine's state (R23, R28 to R30, R40 to R44). -/
def coreResults (s : State) :
    Fsm × Bool × ErrCode × Word × Word × BitVec 1 × Byte × Byte × NCursor × Word × Nibble :=
  (s.fsm, s.done, s.errCode, s.outLen, s.consumed, s.consumedHi, s.last, s.prev, s.ncur, s.scur, s.hold)

theorem engineStep_of_idle {s : State} (hf : s.fsm = .idle) : engineStep s = .next s := by
  simp [engineStep, hf]

/-- A register write while IDLE that is no command but NOP. -/
theorem regWrite_keeps_coreResults {s t : State} {offset bits : Nat} {v : Word} (hf : s.fsm = .idle)
    (hnop : offset = 0 → bits = 32 → decodeCommand v = .nop) (ht : regWrite offset bits v s = .next t) :
    coreResults t = coreResults s := by
  unfold regWrite at ht
  split_ifs at ht with hg hc hb
  · obtain ⟨hbits, -, -⟩ := goodAccess_iff.mp (by simpa using hg)
    rw [hnop hc hbits] at ht
    cases ht
    rfl
  · exact absurd hf (busy_iff.mp hb)
  · cases ht
    rw [writeRegister_eq]
    rfl

theorem regRead_keeps_coreResults {s t : State} {offset bits : Nat} (ht : regRead offset bits s = .next t) :
    coreResults t = coreResults s := by
  unfold regRead at ht
  split_ifs at ht <;> cases ht
  · rfl
  · rw [statusSeen_eq]
    rfl
  · rfl

theorem makeMove_keeps_coreResults {m : Move} {s t : State} (hf : s.fsm = .idle) (hreset : m ≠ .reset)
    (hnop : ∀ v, m = .regWrite 0 32 v → decodeCommand v = .nop) (ht : makeMove m s = .next t) :
    coreResults t = coreResults s := by
  cases m with
  | engine => cases (engineStep_of_idle hf).symm.trans ht; rfl
  | regWrite offset bits v => exact regWrite_keeps_coreResults hf (fun ho hb => hnop v (by rw [ho, hb])) ht
  | regRead offset bits => exact regRead_keeps_coreResults ht
  | poll =>
    rw [makeMove, if_neg (by simp [busy, hf])] at ht
    exact regRead_keeps_coreResults ht
  | memWrite a v =>
    simp only [makeMove, hostWrite] at ht
    split_ifs at ht
    cases ht
    rfl
  | memRead a =>
    simp only [makeMove, hostRead] at ht
    split_ifs at ht <;> cases ht <;> rfl
  | reset => exact absurd rfl hreset

/-- Settles O51: move by move (`makeMove_keeps_coreResults`). -/
theorem idlePersists : Obligations.IdlePersists := by
  intro s t hf ht hreset hnop
  have hkeep : coreResults t = coreResults s := by
    cases hs : s.script with
    | nil => cases (engineStep_of_idle hf).symm.trans ((step_nil hs).symm.trans ht); rfl
    | cons m rest =>
      exact makeMove_keeps_coreResults (s := s.setScript rest) hf (fun h => hreset rest (by rw [hs, h]))
        (fun v h => hnop v rest (by rw [hs, h])) ((step_cons hs).symm.trans ht)
  simpa [coreResults, hf] using hkeep

/-! ## What earlier commands leave -/

/-- The state `s` with the host's side of `x`. -/
def State.withHost (x s : State) : State := { s with script := x.script, rdata := x.rdata, draws := x.draws }

/-- The state `s` with the host's side and the result registers of `x`: all that a running command does not read. -/
def State.withLeft (x s : State) : State :=
  { s with
    script := x.script, rdata := x.rdata, draws := x.draws
    outLen := x.outLen, consumed := x.consumed, consumedHi := x.consumedHi, last := x.last }

/-- The state `s` with what `x` left over carried along: by a running command all of it, by an ended one the host's
side only. -/
def State.carry (x s : State) : State := if s.fsm = .idle then x.withHost s else x.withLeft s

/-- The outcome with its next state changed. -/
def mapNext (g : State → State) : Host.Outcome State Fault Refusal → Host.Outcome State Fault Refusal
  | .next t => .next (g t)
  | .fault r => .fault r
  | .refused r => .refused r

theorem State.carry_of_running {x s : State} (hf : s.fsm ≠ .idle) : x.carry s = x.withLeft s := if_neg hf

theorem State.carry_of_idle {x s : State} (hf : s.fsm = .idle) : x.carry s = x.withHost s := if_pos hf

section

variable (x s : State)

@[simp] theorem State.withLeft_fsm : (x.withLeft s).fsm = s.fsm := rfl
@[simp] theorem State.withLeft_dstCap : (x.withLeft s).dstCap = s.dstCap := rfl
@[simp] theorem State.withLeft_prev : (x.withLeft s).prev = s.prev := rfl
@[simp] theorem State.withLeft_hold : (x.withLeft s).hold = s.hold := rfl
@[simp] theorem State.withLeft_ncur : (x.withLeft s).ncur = s.ncur := rfl
@[simp] theorem packAddr_withLeft : packAddr (x.withLeft s) = packAddr s := rfl
@[simp] theorem sampleAddr_withLeft : sampleAddr (x.withLeft s) = sampleAddr s := rfl
@[simp] theorem inputAddr_withLeft : inputAddr (x.withLeft s) = inputAddr s := rfl
@[simp] theorem available_withLeft (j : Nat) : available (x.withLeft s) j = available s j := rfl
@[simp] theorem encodeEnds_withLeft : encodeEnds (x.withLeft s) = encodeEnds s := rfl
@[simp] theorem decodeEnds_withLeft : decodeEnds (x.withLeft s) = decodeEnds s := rfl
@[simp] theorem memRead_withLeft (a : Nat) : memRead (x.withLeft s) a = memRead s a := rfl
@[simp] theorem inspectWord_withLeft : inspectWord (x.withLeft s) = inspectWord s := rfl

end

/-- The memory port and the packer read nothing of what is left over. -/
theorem memWrite_withLeft (x s : State) (a : Nat) (v : Byte) :
    memWrite (x.withLeft s) a v = (memWrite s a v).map x.withLeft := by
  obtain h | h := Nat.lt_or_ge a (2 ^ s.addrW)
  · rw [memWrite_of_lt v h, memWrite_of_lt (s := x.withLeft s) v h]
    rfl
  · rw [memWrite_eq_none v h, memWrite_eq_none (s := x.withLeft s) v h]
    rfl

theorem emitNibble_withLeft (x s : State) (v : Nibble) :
    emitNibble v (x.withLeft s) = (emitNibble v s).map x.withLeft := by
  obtain he | ho := Nat.mod_two_eq_zero_or_one s.ncur.toNat
  · rw [emitNibble_even v he, emitNibble_even (s := x.withLeft s) v he]
    rfl
  · have ho' : ¬s.ncur.toNat % 2 = 0 := by omega
    simp only [emitNibble, State.withLeft_ncur, State.withLeft_hold, packAddr_withLeft, memWrite_withLeft, if_neg ho']
    cases memWrite s (packAddr s) (packByte s.hold v) <;> rfl

theorem flush_withLeft (x s : State) : flush (x.withLeft s) = (flush s).map x.withLeft := by
  simp only [flush, State.withLeft_ncur, State.withLeft_hold, packAddr_withLeft, memWrite_withLeft]
  split <;> rfl

theorem emitNibbles_withLeft (x : State) (c : List Nibble) (s : State) :
    emitNibbles c (x.withLeft s) = (emitNibbles c s).map x.withLeft := by
  induction c generalizing s with
  | nil => rfl
  | cons v vs ih =>
    simp only [emitNibbles, emitNibble_withLeft]
    cases emitNibble v s with
    | none => rfl
    | some t => exact ih t

/-- finish overwrites the results. -/
theorem finishCommand_withLeft (x s : State) (e : ErrCode) :
    finishCommand e (x.withLeft s) = mapNext x.carry (finishCommand e s) := by
  simp only [finishCommand, State.withLeft_fsm]
  cases s.fsm with
  | idle => rfl
  | encRun =>
    simp only [finishEncode, flush_withLeft]
    cases flush s with
    | none => rfl
    | some t => rfl
  | decRun => rfl

theorem emitWord_withLeft {x s : State} (hf : s.fsm = .encRun) (c : List Nibble) :
    emitWord c (x.withLeft s) = mapNext x.carry (emitWord c s) := by
  have hlt := s.dstCap.isLt
  simp only [emitWord, State.withLeft_fsm, State.withLeft_dstCap, State.withLeft_ncur, inputAddr_withLeft,
    encodeEnds_withLeft, memRead_withLeft, finishCommand_withLeft, emitNibbles_withLeft]
  split
  · rfl
  split
  · rfl
  cases memRead s (inputAddr s) with
  | none => rfl
  | some smp =>
    simp only
    split
    · rfl
    · cases hu : emitNibbles c s with
      | none => rfl
      | some u =>
        have hrun : (u.commit smp).fsm ≠ .idle := by
          obtain ⟨m, w, rfl, -⟩ := emitNibbles_cases hu (by omega)
          simp [hf]
        exact congrArg _ (State.carry_of_running hrun).symm

theorem writeSample_withLeft {x s : State} (hf : s.fsm = .decRun) (len : Nat) (v : Byte) :
    writeSample len v (x.withLeft s) = mapNext x.carry (writeSample len v s) := by
  simp only [writeSample, sampleAddr_withLeft, memWrite_withLeft]
  cases hu : memWrite s (sampleAddr s) v with
  | none => rfl
  | some u =>
    obtain ⟨-, rfl⟩ := memWrite_eq_some.mp hu
    have hrun : (((s.setMem (Memory.write s.mem (sampleAddr s) v)).commit v).advance len).fsm ≠ .idle := by simp [hf]
    exact congrArg _ (State.carry_of_running hrun).symm

theorem withWord_withLeft {x s : State} (need : Nat) {k : State → Host.Outcome State Fault Refusal}
    (hk : k (x.withLeft s) = mapNext x.carry (k s)) :
    withWord need k (x.withLeft s) = mapNext x.carry (withWord need k s) := by
  simp only [withWord, State.withLeft_fsm, State.withLeft_ncur, decodeEnds_withLeft, available_withLeft,
    finishCommand_withLeft, hk]
  split_ifs <;> rfl

theorem decodeDelta_withLeft {x s : State} (hf : s.fsm = .decRun) (len : Nat) (d : Int) :
    decodeDelta len d (x.withLeft s) = mapNext x.carry (decodeDelta len d s) := by
  refine withWord_withLeft len ?_
  simp only [State.withLeft_prev, writeSample_withLeft hf, finishCommand_withLeft]
  split_ifs <;> rfl

theorem exec_decoder_word_withLeft {x s : State} {i : Instr} (hf : s.fsm = .decRun) (hi : 0 < inspectedNibbles i) :
    exec i (x.withLeft s) = mapNext x.carry (exec i s) := by
  cases i with
  | decEscBad n1 => exact withWord_withLeft 2 (finishCommand_withLeft x s .badEscape)
  | decShort | decMidNeg | decMidPos | decEscNeg | decEscPos => exact decodeDelta_withLeft hf _ _
  | _ => exact absurd hi (Nat.lt_irrefl 0)

/-- An engine step of a running command carries along what is left over. -/
theorem engineStep_carry {x s : State} (hf : s.fsm ≠ .idle) :
    engineStep (x.carry s) = mapNext x.carry (engineStep s) := by
  rw [State.carry_of_running hf]
  cases hs : s.fsm with
  | idle => exact absurd hs hf
  | encRun =>
    simp only [engineStep, State.withLeft_fsm, hs, encodeStep, encodeEnds_withLeft, inputAddr_withLeft,
      memRead_withLeft, State.withLeft_prev, finishCommand_withLeft, exec_classify]
    split
    · rfl
    · cases memRead s (inputAddr s) with
      | none => rfl
      | some smp => exact emitWord_withLeft hs _
  | decRun =>
    simp only [engineStep, State.withLeft_fsm, hs, decodeStep, decodeEnds_withLeft, inspectWord_withLeft,
      finishCommand_withLeft]
    split
    · rfl
    · cases inspectWord s with
      | none => rfl
      | some ns => exact exec_decoder_word_withLeft hs (inspectedNibbles_decodeWindow_pos _)

theorem carry_fsm (x s : State) : (x.carry s).fsm = s.fsm := by
  unfold State.carry
  split <;> rfl

theorem runEngine_carry (x : State) (n : Nat) (s : State) : runEngine n (x.carry s) = x.carry (runEngine n s) := by
  induction n generalizing s with
  | zero => rfl
  | succ n ih =>
    by_cases hf : s.fsm = .idle
    · rw [runEngine_of_idle hf, runEngine_of_idle ((carry_fsm x s).trans hf)]
    · have hb : busy s = true := busy_iff.mpr hf
      have hb' : busy (x.carry s) = true := busy_iff.mpr (by rwa [carry_fsm])
      simp only [runEngine, hb, hb', engineStep_carry hf, if_true]
      cases engineStep s with
      | next t => exact ih t
      | fault r => rfl
      | refused r => rfl

/-- A command run to its end carries along what is left over. -/
theorem atEnd_carry (x s : State) : atEnd (x.carry s) = x.carry (atEnd s) := by
  have hsteps : stepsLeft (x.carry s) = stepsLeft s := by
    unfold State.carry
    split <;> rfl
  rw [atEnd, hsteps, runEngine_carry, atEnd]

/-- Starts on the same parameters, operands and memory differ in what is left over only (R232). -/
theorem start_eq_withLeft {s s' : State} (f : Fsm) (hw : s.addrW = s'.addrW) (hr : s.regBase = s'.regBase)
    (hsa : s.srcAddr = s'.srcAddr) (hsl : s.srcLen = s'.srcLen) (hda : s.dstAddr = s'.dstAddr)
    (hdc : s.dstCap = s'.dstCap) (hm : s.mem = s'.mem) : s'.start f = s'.withLeft (s.start f) := by
  simp only [State.start, State.withLeft, hw, hr, hsa, hsl, hda, hdc, hm]

/-- Settles O52: the two started machines differ in what is left over only, and that is carried along. -/
theorem noCarryOver : Obligations.NoCarryOver := by
  intro i s s' t t' hi hf hf' hw hr hsa hsl hda hdc hm ht ht'
  obtain ⟨f, hrun, hexec⟩ := exec_start hi
  rw [hexec] at ht ht'
  obtain ⟨hb, -⟩ | ⟨-, -, rfl⟩ := startCommand_cases ht
  · exact absurd hf hb
  obtain ⟨hb, -⟩ | ⟨-, -, rfl⟩ := startCommand_cases ht'
  · exact absurd hf' hb
  rw [start_eq_withLeft f hw hr hsa hsl hda hdc hm, ← State.carry_of_running hrun, atEnd_carry]
  generalize atEnd (s.start f) = e
  refine ⟨?_, ?_, ?_, (carry_fsm s' e).symm, ?_, ?_, ?_, fun hidle => ?_⟩
  case refine_7 => rw [State.carry_of_idle hidle]; exact ⟨rfl, rfl, rfl, rfl⟩
  all_goals
    unfold State.carry
    split <;> rfl

end Sys2Proof.Machine
end

section
/-! SUPPORT. A DECODE that stops at its count before the stream is exhausted (41_decoder.md R132, R155), and the
statements about it. -/

namespace Sys2Proof.Machine

/-- One sample for each code word (R147). -/
theorem samplesOf_length {p : Byte} {ws : List Instr} {xs : List Byte} (h : samplesOf p ws = some xs) :
    xs.length = ws.length := by
  induction ws generalizing p xs with
  | nil => cases h; rfl
  | cons i ws ih =>
    obtain ⟨d, y, ys, -, -, hys, rfl⟩ := samplesOf_cons h
    rw [List.length_cons, List.length_cons, ih hys]

/-- Settles O59: the DECODE runs the words one after the other (`Decoding.run`) up to the count. -/
theorem decodeResult : Obligations.DecodeResult := by
  intro u ws xs hinv hf hs hwf hxs ns hP hm hM v
  have hlen := samplesOf_length hxs
  have hstart : Decoding u u 0 [] := .start hf hs (hinv.busy_buffers (by simp [hf]))
  obtain ⟨w, hw⟩ := hstart.run hxs hwf (by simp [hlen, hM]) (by rwa [Nat.zero_add])
    (fun j hj => by rw [Nat.zero_add]; exact hm j hj)
  rw [List.nil_append, Nat.zero_add] at hw
  have hv : Decoded u v .none _ _ := hw.decoded (hw.engineStep_none (.inl (by omega)))
  have hout := hv.output
  rw [hlen, ← hM] at hout
  exact ⟨hv.stopped, hv.done, hv.code, BitVec.eq_of_toNat_eq (by rw [hv.outLen]; omega), hv.consumed, hv.last, hout⟩

theorem streamOf_append (p : Byte) (xs ys : List Byte) :
    streamOf p (xs ++ ys) = streamOf p xs ++ streamOf (xs.getLastD p) ys := by
  induction xs generalizing p with
  | nil => rfl
  | cons x xs ih => rw [List.cons_append, streamOf, ih, List.getLastD_cons, streamOf, List.append_assoc]

/-- The stream of the first samples is the start of the stream. -/
theorem streamOf_inputSamples_split (s : State) (j : Nat) :
    ∃ rest, streamOf 0 (inputSamples s) = encStream s j ++ rest :=
  ⟨_, by rw [encStream, ← streamOf_append, List.take_append_drop]⟩

theorem inputSamples_take {s : State} {j : Nat} (hj : j ≤ s.srcLen.toNat) :
    (inputSamples s).take j = bytesAt s.mem s.srcAddr.toNat j := by
  simp [inputSamples, bytesAt, ← List.map_take, List.take_range, hj]

/-- With room for them the DECODE reaches the end of the first samples (R155). -/
theorem DecodesEncoded.decoding_take {s u : State} (h : DecodesEncoded s u) {j : Nat} (hj : j ≤ s.srcLen.toNat)
    (hM : j ≤ u.dstCap.toNat) : ∃ v, Decoding u v (encStream s j).length ((inputSamples s).take j) := by
  obtain ⟨rest, hsplit⟩ := streamOf_inputSamples_split s j
  have hheld := h.holdsStream.holdsNibbles
  have hlen := h.srcLen_eq
  rw [hsplit, holdsNibbles_append] at hheld
  rw [hsplit, List.length_append] at hlen
  have hrun := h.start.run (samplesOf_codeWords 0 ((inputSamples s).take j)) (codeWords_wellFormed 0 _)
  rw [flatMap_codeWords, Nat.zero_add, List.nil_append, List.length_nil, Nat.zero_add, List.length_take,
    inputSamples_length, Nat.min_eq_left hj] at hrun
  exact hrun hM (show (encStream s j).length ≤ _ by omega) hheld.1

/-- Settles O57: the DECODE reaches the end of the first M samples (`DecodesEncoded.decoding_take`), where the count is
reached. -/
theorem stoppingShort : Obligations.StoppingShort := by
  intro s u hs hsf hsn hok hu huf hun hlen hcap hcopy v
  have h : DecodesEncoded s u := ⟨hs, hsf, hsn, hok, hu, huf, hun, hlen, hcopy⟩
  obtain ⟨w, hw⟩ := h.decoding_take hcap le_rfl
  have hcount : ((inputSamples s).take u.dstCap.toNat).length = u.dstCap.toNat := by
    rw [List.length_take, inputSamples_length, Nat.min_eq_left hcap]
  have hv : Decoded u v .none _ _ := hw.decoded (hw.engineStep_none (.inl hcount))
  have hout := hv.output
  rw [hcount, inputSamples_take hcap] at hout
  exact ⟨hv.stopped, hv.done, hv.code, BitVec.eq_of_toNat_eq (hv.outLen.trans hcount), hv.consumed,
    bytesAt_eq_bytesAt_iff.mp hout⟩

end Sys2Proof.Machine
end
